-- ==== Sys2Proof/Word.lean ====
section
/-! DEFINITION. The word types of the block: the byte (spec/00_scope.md R8), the 10-bit command word and its 2-bit opcode
field (spec/30_encoding.md R70). Every value is unsigned (R12), bit 0 is the least significant. -/

namespace Sys2Proof

/-- An 8-bit unsigned value: every data register, the seed operand and the output (R8). -/
abbrev Byte := BitVec 8

/-- The `cmd` port and the field `w[9:8]` of a command word (R38, R70). -/
abbrev Opcode := BitVec 2

/-- A 10-bit command word `{op[1:0], imm8[7:0]}` (R70). -/
abbrev CommandWord := BitVec 10

end Sys2Proof
end

