-- ==== Sys2Proof/Machine/Arith.lean ====
section
/-! DEFINITION. The arithmetic primitives of spec/00_scope.md R14: unsigned, 8 bits, modulo 256; no carry is kept and nothing
traps (spec/41_generate.md R113). -/

namespace Sys2Proof.Machine

/-- `(a + b) mod 256`. -/
def add8 (a b : Byte) : Byte := a + b

/-- `(a * b) mod 256`, the low 8 bits of the 16-bit product. -/
def mul8 (a b : Byte) : Byte := a * b

/-- `floor(v / 2^k)`: a logical shift. -/
def shr8 (v : Byte) (k : Nat) : Byte := v >>> k

/-- `(v * 2^k) mod 256`. -/
def shl8 (v : Byte) (k : Nat) : Byte := v <<< k

/-- The bitwise OR. -/
def or8 (a b : Byte) : Byte := a ||| b

/-- The nibble swap (R14, R112). -/
def swap4 (v : Byte) : Byte := or8 (shr8 v 4) (shl8 v 4)

end Sys2Proof.Machine
end

