-- ==== Sys2Proof/Machine/Registers.lean ====
section
/-! DEFINITION. The six architectural registers of the block, "No other state exists" (spec/10_state.md section 1, R41), and
their reset values (R37). -/

namespace Sys2Proof.Machine

/-- The state of the block as spec/10_state.md R41 gives it. -/
structure Registers where
  /-- SEED: the fixed increment added to WEYL at every NEXT (R20). -/
  seed : Byte
  /-- WEYL: the Weyl accumulator (R21). -/
  weyl : Byte
  /-- STATE: the squared and perturbed value, before the nibble swap (R22, R26). -/
  state : Byte
  /-- OUT: the last byte NEXT returned (R32). -/
  out : Byte
  /-- DVALID: the last edge executed NEXT (R30). -/
  dvalid : Bool
  /-- SEEDED: a construction has occurred since the last reset (R31). -/
  seeded : Bool
deriving DecidableEq, Repr, Inhabited

/-- The reset value of every register (R37, R180). -/
def Registers.reset : Registers :=
  { seed := 0x00#8, weyl := 0x00#8, state := 0x00#8, out := 0x00#8, dvalid := false, seeded := false }

end Sys2Proof.Machine
end

