-- ==== Sys2Proof/Machine/Flags.lean ====
section
/-! DEFINITION. The two status flags (spec/10_state.md R30, R31). There is no carry, overflow or zero flag (R23). -/

namespace Sys2Proof.Machine

/-- DVALID <- 1: the command executed was NEXT (R30). -/
def Registers.markFresh (r : Registers) : Registers := { r with dvalid := true }

/-- DVALID <- 0: the command executed was NOP, SEED or SEEDT (R30). -/
def Registers.markStale (r : Registers) : Registers := { r with dvalid := false }

/-- SEEDED <- 1: a construction (R31). -/
def Registers.markSeeded (r : Registers) : Registers := { r with seeded := true }

end Sys2Proof.Machine
end

