-- ==== Sys2Proof/Machine/Ports.lean ====
section
/-! DEFINITION. What the host and the platform present on the block's input ports at one rising edge (spec/10_state.md R38, R40,
R41). -/

namespace Sys2Proof.Machine

/-- The values sampled at one rising edge (the `Input` of R41). -/
structure Input where
  /-- The synchronous reset pin, active high (R180). -/
  rst : Bool
  /-- The command opcode, bits [9:8] of the command word (R70). -/
  cmd : Opcode
  /-- The command immediate, bits [7:0] of the command word (R70). -/
  din : Byte
  /-- The count on the time port, where the edge names it (the annotation of R76); `none` leaves it to the platform's free draw
  (R10, log 1). A number, not bits: the port's width `TIME_W` is open (R9) and only the low byte is ever used. -/
  tns : Option Nat
deriving DecidableEq, Repr, Inhabited

/-- One rising edge, as the input ports see it. -/
inductive Edge where
  /-- Every input is stable around the edge (R188): the block samples it. -/
  | clean (i : Input)
  /-- Some input changes within the sampling window (R40; spec/93_implementation_defined.md U4; log 4). -/
  | marginal
deriving DecidableEq, Repr, Inhabited

/-- What leaves registers unspecified: the two cases the spec names. -/
inductive Unspecified where
  /-- An edge that broke the sampling window (U4). -/
  | marginalEdge
  /-- The time from power-up to the first reset (R182, U3). -/
  | powerUp
deriving DecidableEq, Repr

end Sys2Proof.Machine
end

