-- ==== Sys2Proof/Config.lean ====
section
/-! DEFINITION. What the spec leaves open: the parameters of spec/00_scope.md section 4 and the free values of
spec/93_implementation_defined.md. Each is an opaque constant with no body, so nothing proved depends on a value of it. The free
values take the two plain counters of State: `site`, which host and platform stand around the block, and `edge`, how many
edges have passed. -/

namespace Sys2Proof

/-- How many bits `TIME_W` has above the eight that SEEDT uses (spec/00_scope.md R9: at least 8; log 1). -/
opaque Config.timeWAboveByte : Nat

/-- `TIME_W`, the width of the time port: at least 8 (R9). -/
def Config.timeW : Nat := 8 + Config.timeWAboveByte

/-- `time_src`: what the platform presents on `tns` at an edge, "a draw per edge, under no law" (R10, U1, D11; log 1). -/
opaque Config.timeSrc (site edge : Nat) : BitVec Config.timeW

/-- What the host presents at an edge for which State lists nothing: the block samples its ports at every edge (R38, R40), and
the spec does not say what an unnamed host drives (log 2). -/
opaque Config.hostInput (site edge : Nat) : Machine.Input

/-- The registers where the spec leaves all six unspecified (U3, U4; logs 4 and 6). -/
opaque Config.anyRegisters (why : Machine.Unspecified) (site edge : Nat) : Machine.Registers

end Sys2Proof
end

