-- ==== Sys2Proof/Syntax.lean ====
section
/-! DEFINITION. The command set, one constructor per row of spec/opcode_table.json. NOP, SEEDT and NEXT carry no operand:
they ignore `imm8` (spec/30_encoding.md R74), so the decode function of R75 drops it. -/

namespace Sys2Proof

/-- The four commands of spec/30_encoding.md R73. -/
inductive Instr where
  /-- NOP: leave the generator unchanged for one edge (R140). -/
  | nop
  /-- SEED imm8: construct a generator with an explicit seed (R90). -/
  | seed (imm8 : Byte)
  /-- SEEDT: construct a generator whose seed is the low byte of the time source (R92). -/
  | seedt
  /-- NEXT: advance the generator and emit one byte (R110). -/
  | next
deriving DecidableEq, Repr

end Sys2Proof
end

