-- ==== Sys2Proof/WellFormed.lean ====
section
/-! DEFINITION. The checks on numbers that stand for parts of a command before they have the block's widths. A term of `Instr`
itself cannot be ill-formed: its one operand has the type of a byte. -/

namespace Sys2Proof

/-- A number is a command word when it fits ten bits: "written as three hex digits, `0x000` to `0x3FF`"
(spec/30_encoding.md R70). -/
def isCommandWord (w : Nat) : Bool := decide (w < 1024)

/-- A number an assembler accepts as `<imm8>`: "A value outside 0 to 255 is an assembler error" (R76). -/
def isSeedByte (v : Nat) : Bool := decide (v < 256)

end Sys2Proof
end

