-- ==== Sys2Proof/Decode.lean ====
section
/-! DEFINITION. Decoding and encoding of command words (spec/30_encoding.md R70 to R78). Every one of the 1024 words decodes;
the only numbers rejected, by name, are those that are no command word at all. -/

namespace Sys2Proof

/-- The opcode field `op = w[9:8]` (R70). -/
def opField (w : CommandWord) : Opcode := w.extractLsb' 8 2

/-- The immediate field `imm8 = w[7:0]` (R70, R72). -/
def immField (w : CommandWord) : Byte := w.extractLsb' 0 8

/-- The command word a port pair carries: `w[9:8] = cmd`, `w[7:0] = din` (R38, R70). -/
def portWord (cmd : Opcode) (din : Byte) : CommandWord := cmd ++ din

/-- The total decode function of R75; `imm8` is dropped by every command but SEED (R74). -/
def decode (w : CommandWord) : Instr :=
  if opField w = 0b00#2 then .nop
  else if opField w = 0b01#2 then .seed (immField w)
  else if opField w = 0b10#2 then .seedt
  else .next

/-- Why a number is not decoded. -/
inductive DecodeError where
  /-- The number has a bit above bit 9, so no value of the command port is it (R70). Raised by `decodeNumber`. Safe. -/
  | widerThanTenBits
deriving DecidableEq, Repr

/-- Decoding of any number: a command word decodes, any other number is rejected by name. -/
def decodeNumber (w : Nat) : Except DecodeError Instr :=
  if isCommandWord w then .ok (decode (BitVec.ofNat 10 w)) else .error .widerThanTenBits

/-- The host's question: what the decoder reads from the instruction whose bits are `w`. The block's one command word is the
number itself (it is taken from the port in one piece, R70), so the number of table bits does not matter. -/
def decodeTableWord (_nbits w : Nat) : Option Instr := (decodeNumber w).toOption

/-- The mask every row of the opcode table is matched under (R74). -/
def matchMask : CommandWord := 0x300#10

/-- The `match` column of the opcode table (R75's encoding summary). -/
def matchBits : Instr → CommandWord
  | .nop => 0x000#10
  | .seed _ => 0x100#10
  | .seedt => 0x200#10
  | .next => 0x300#10

/-- The word the assembler emits: NOP `0x000`, SEED `v` `0x100 | v`, SEEDT `0x200`, NEXT `0x300` (R78). -/
def encode : Instr → CommandWord
  | .nop => 0x000#10
  | .seed v => 0x100#10 ||| v.setWidth 10
  | .seedt => 0x200#10
  | .next => 0x300#10

end Sys2Proof
end

