-- ==== Sys2Proof/Machine/State.lean ====
section
/-! DEFINITION. The state of the model: the block's six registers, and around them what the host will present and the indexes of
the free values. The block has no memory (spec/20_memory.md R50) and no program counter (spec/10_state.md R29). -/

namespace Sys2Proof.Machine

/-- The machine: spec/10_state.md R41's registers, with the inputs of the coming edges as plain data. -/
structure State where
  /-- The block's own state, all of it (R41). -/
  regs : Registers
  /-- Power has come up and no edge with `rst = 1` has come since: "From power-up until the first edge with `rst = 1`, every
  register's value is unspecified" (spec/70_reset_and_hazards.md R182, R161, U3; log 6). -/
  awaitingReset : Bool
  /-- The MODEL's own: what the ports will carry at the coming edges, oldest first (R58, R190); the head is presented now. -/
  inputs : List Edge
  /-- The MODEL's own: how many edges have passed, an index of the free values (log 3). -/
  edges : Nat
  /-- The MODEL's own: which host and platform stand around the block, an index of the free values (log 3). -/
  site : Nat
deriving DecidableEq, Repr

/-- The faults of the block: none. "A model of the block has no fault outcome" (spec/60_exceptions.md R150, R151). -/
inductive Fault where
deriving DecidableEq, Repr

/-- Why something is refused. No command and no edge of the block is (R151). -/
inductive Refusal where
  /-- An instruction without a meaning. Raised by no arm: every command of the table has its meaning. Safe. -/
  | notModelled (mnemonic : String)
  /-- Two hosts drive one block's command port at one edge: raised by the platform model only, as R151 and U5 ask. Safe. -/
  | twoDrivers
  /-- An event at a block the platform does not contain: raised by the platform model only. Safe. -/
  | noSuchUnit
deriving DecidableEq, Repr

/-- The machine right after reset: every register at its reset value (R37), no reset outstanding, nothing presented yet (log 2), both indexes of the
free values at zero (log 3). -/
def State.reset : State :=
  { regs := Registers.reset, awaitingReset := false, inputs := [], edges := 0, site := 0 }

end Sys2Proof.Machine
end

