-- ==== Sys2Proof/Machine/Operands.lean ====
section
/-! DEFINITION. Where a command's operands come from: the edge the ports present now, and on it the time count SEEDT takes its
seed from. SEED's own operand is the immediate the decoder has read (spec/30_encoding.md R72). -/

namespace Sys2Proof.Machine

/-- The edge the ports present now: the host's next listed one, or a free stable input where the host has listed none
(log 2). -/
def State.presented (s : State) : Edge :=
  match s.inputs with
  | e :: _ => e
  | [] => .clean (Config.hostInput s.site s.edges)

/-- The count an edge names for the time port, where it names one (R76). -/
def Edge.namedTns : Edge → Option Nat
  | .clean i => i.tns
  | .marginal => none

/-- The count on the time port at this edge: the one the edge names, or the platform's free draw (R10, U1; log 1). -/
def State.tns (s : State) : Nat :=
  match s.presented.namedTns with
  | some v => v
  | none => (Config.timeSrc s.site s.edges).toNat

/-- `Draw8() = in.tns[7:0]` (spec/00_scope.md R16). -/
def State.draw8 (s : State) : Byte := BitVec.ofNat 8 s.tns

end Sys2Proof.Machine
end

