-- ==== Sys2Proof/Machine/Ops.lean ====
section
/-! DEFINITION. The named operations over the registers and over the edge. The block takes no exception and returns from none
(spec/60_exceptions.md R150, R154, R155), so there is no such operation here; its one event beside a command is the reset
(R153). -/

namespace Sys2Proof.Machine

/-- Construction with seed `v`: the one operation under SEED and SEEDT (spec/40_construction.md R90, R92, R94). OUT is kept. -/
def Registers.construct (v : Byte) (r : Registers) : Registers :=
  ({ r with seed := v, weyl := 0x00#8, state := 0x00#8 } : Registers).markStale.markSeeded

/-- One generator step (spec/41_generate.md R110, R111): WEYL advances, STATE is squared and perturbed with the NEW WEYL, and
only OUT is nibble-swapped. -/
def Registers.generate (r : Registers) : Registers :=
  let w := add8 r.weyl r.seed
  let s := add8 (mul8 r.state r.state) w
  ({ r with weyl := w, state := s, out := swap4 s } : Registers).markFresh

/-- One idle edge (spec/42_idle.md R140). -/
def Registers.idle (r : Registers) : Registers := r.markStale

/-- The state with these registers, the host's side untouched. -/
def State.withRegs (s : State) (r : Registers) : State := { s with regs := r }

/-- The reset action (spec/70_reset_and_hazards.md R180): every register at its reset value, and from here on specified (R182). -/
def State.resetAction (s : State) : State := { s with regs := Registers.reset, awaitingReset := false }

/-- Each of the six registers may hold any value after this edge (U3, U4; logs 4 and 6). -/
def State.unsettle (s : State) (why : Unspecified) : State :=
  s.withRegs (Config.anyRegisters why s.site s.edges)

/-- What one edge performs. -/
inductive EdgeAction where
  /-- It leaves every register unspecified: the sampling window was broken (R40, U4), or no reset has come since power-up
  (R182, U3). -/
  | unsettle (why : Unspecified)
  /-- A reset (R180). -/
  | reset
  /-- One command (R73). -/
  | command (i : Instr)
deriving DecidableEq, Repr

/-- What a sampled input selects: the reset wins over the command at the same edge (R153), else `cmd` and `din` select the
command (R41, R73). -/
def Input.action (i : Input) : EdgeAction :=
  if i.rst then .reset else .command (decode (portWord i.cmd i.din))

/-- What an edge selects by its inputs alone. -/
def Edge.action : Edge → EdgeAction
  | .clean i => i.action
  | .marginal => .unsettle .marginalEdge

/-- What the presented edge performs in this state: until the first edge with `rst = 1` after power-up, any edge but a reset
leaves every register unspecified (R182, U3; log 6). -/
def State.action (s : State) : EdgeAction :=
  match s.presented.action with
  | .reset => .reset
  | .unsettle why => if s.awaitingReset then .unsettle .powerUp else .unsettle why
  | .command i => if s.awaitingReset then .unsettle .powerUp else .command i

/-- The edge is over: the host's list moves on by one, the index of the free values advances. -/
def State.endEdge (s : State) : State :=
  { s with inputs := s.inputs.tail, edges := s.edges + 1 }

/-- The host presents these edges next, before whatever it had listed (R58, R190). -/
def State.present (s : State) (es : List Edge) : State := { s with inputs := es ++ s.inputs }

/-- The edge that carries a command word with `rst = 0` and leaves the time port to the platform. -/
def wordEdge (w : CommandWord) : Edge :=
  .clean { rst := false, cmd := opField w, din := immField w, tns := none }

/-- The edge that carries a command in the assembler's encoding (R78). -/
def commandEdge (i : Instr) : Edge := wordEdge (encode i)

/-- A SEEDT edge at which the time port carries `v` (R76's annotation). -/
def seedtEdge (v : Nat) : Edge :=
  .clean { rst := false, cmd := 0b10#2, din := 0x00#8, tns := some v }

/-- One edge with `rst = 1` (R76's `RESET` line); the `cmd` and `din` driven then are ignored (R78, R180). -/
def resetEdge : Edge := .clean { rst := true, cmd := 0b00#2, din := 0x00#8, tns := none }

/-- The output port `dout` (R39). -/
def State.dout (s : State) : Byte := s.regs.out

/-- The output port `dvalid` (R39). -/
def State.dvalidPort (s : State) : Bool := s.regs.dvalid

/-- The output port `seeded` (R39). -/
def State.seededPort (s : State) : Bool := s.regs.seeded

/-- Power is lost and returns: nothing survives, every register is unspecified, and stays so until a reset, which State now
awaits (R161, R182, U3; log 6). The index of the free values advances. -/
def State.powerCycle (s : State) : State :=
  { s with regs := Config.anyRegisters .powerUp s.site s.edges, awaitingReset := true, edges := s.edges + 1 }

end Sys2Proof.Machine
end

