-- ==== Sys2Proof/Machine/Construction.lean ====
section
/-! DEFINITION. The construction commands SEED and SEEDT (spec/40_construction.md). -/

namespace Sys2Proof.Machine

/-- SEED imm8 (R90, R91): the immediate is the seed as given; every byte is legal. -/
def execSeed (imm8 : Byte) (s : State) : Host.Outcome State Fault Refusal :=
  .next (s.withRegs (s.regs.construct imm8))

/-- SEEDT (R92, R93): the seed is the low byte of the time port at this edge; it never fails and never waits. -/
def execSeedt (s : State) : Host.Outcome State Fault Refusal :=
  .next (s.withRegs (s.regs.construct s.draw8))

end Sys2Proof.Machine
end

