-- ==== Sys2Proof/Machine/Generation.lean ====
section
/-! DEFINITION. The generation command NEXT (spec/41_generate.md). -/

namespace Sys2Proof.Machine

/-- NEXT (R110, R111, R119): defined for every value of the six registers. -/
def execNext (s : State) : Host.Outcome State Fault Refusal :=
  .next (s.withRegs s.regs.generate)

end Sys2Proof.Machine
end

