-- ==== Sys2Proof/Machine/Idle.lean ====
section
/-! DEFINITION. The idle command NOP (spec/42_idle.md). -/

namespace Sys2Proof.Machine

/-- NOP (R140): only DVALID is written. -/
def execNop (s : State) : Host.Outcome State Fault Refusal :=
  .next (s.withRegs s.regs.idle)

end Sys2Proof.Machine
end

