-- ==== Sys2Proof/Machine/Dispatch.lean ====
section
/-! DEFINITION. Dispatch: one arm per command of spec/opcode_table.json. -/

namespace Sys2Proof.Machine

def exec (i : Instr) (s : State) : Host.Outcome State Fault Refusal :=
  match i with
  | .nop => Sys2Proof.Machine.execNop s
  | .seed imm8 => Sys2Proof.Machine.execSeed imm8 s
  | .seedt => Sys2Proof.Machine.execSeedt s
  | .next => Sys2Proof.Machine.execNext s

end Sys2Proof.Machine
end

