-- ==== Sys2Proof/Machine/Step.lean ====
section
/-! DEFINITION. One rising edge of `clk` (spec/10_state.md R38, R41): one reset or one command, on the inputs the host presents. -/

namespace Sys2Proof.Machine

/-- What the presented edge does to the registers. -/
def edgeEffect (s : State) : Host.Outcome State Fault Refusal :=
  match s.action with
  | .unsettle why => .next (s.unsettle why)
  | .reset => .next s.resetAction
  | .command i => exec i s

/-- One rising edge: its effect, and then the host's list moves on. -/
def step (s : State) : Host.Outcome State Fault Refusal :=
  match edgeEffect s with
  | .next t => .next t.endEdge
  | .fault r => .fault r
  | .refused r => .refused r

/-- `s` with the command word `w` on the ports at the coming edge, `rst = 0`: the block fetches nothing (spec/20_memory.md R61),
so where its next command stands IS the port. A time count the host has named for that edge stays (log 2). -/
def State.withFetchWord (s : State) (_nbits w : Nat) : State :=
  { s with
    inputs := .clean { rst := false
                       cmd := opField (BitVec.ofNat 10 w)
                       din := immField (BitVec.ofNat 10 w)
                       tns := s.inputs.head?.bind Edge.namedTns } :: s.inputs.tail }

end Sys2Proof.Machine
end

