-- ==== Sys2Proof/Machine/Assembler.lean ====
section
/-! DEFINITION. The host-program notation of spec/30_encoding.md R76 to R78: lines, pseudo-instructions, and the edges they stand
for. It says nothing about the block; the block sees the edges only. -/

namespace Sys2Proof.Machine

/-- One line of a host program (R76, R77); a number is checked when the line is expanded. -/
inductive AsmLine where
  /-- `NOP`. -/
  | nop
  /-- `SEED <imm8>`, and its other spelling `NEW <imm8>`. -/
  | seed (imm8 : Nat)
  /-- `SEEDT`, and its other spelling `NEWT`; with the annotation `; tns=<value>` where the line carries it. -/
  | seedt (tns : Option Nat)
  /-- `NEXT`. -/
  | next
  /-- `RESET`: one edge with `rst = 1`, a pin action without a command word. -/
  | reset
  /-- `FILL <n>`: `n` consecutive NEXT lines. -/
  | fill (n : Nat)
  /-- `IDLE <n>`: `n` consecutive NOP lines. -/
  | idle (n : Nat)
deriving DecidableEq, Repr

/-- Why a host program is not assembled. -/
inductive AsmError where
  /-- `<imm8>` is outside 0 to 255 (R76). -/
  | seedOutOfRange (v : Nat)
  /-- The line is none of R76 and R77's forms: "No other pseudo-instruction exists". -/
  | notALine
deriving DecidableEq, Repr

/-- The edges a line stands for (R76 to R78). -/
def AsmLine.edges : AsmLine → Except AsmError (List Edge)
  | .nop => .ok [commandEdge .nop]
  | .seed v =>
    if isSeedByte v then .ok [commandEdge (.seed (BitVec.ofNat 8 v))] else .error (.seedOutOfRange v)
  | .seedt none => .ok [commandEdge .seedt]
  | .seedt (some v) => .ok [seedtEdge v]
  | .next => .ok [commandEdge .next]
  | .reset => .ok [resetEdge]
  | .fill n => .ok (List.replicate n (commandEdge .next))
  | .idle n => .ok (List.replicate n (commandEdge .nop))

/-- The edges of a program, in line order: "each line executes at one edge in order" (R76). -/
def assemble : List AsmLine → Except AsmError (List Edge)
  | [] => .ok []
  | l :: ls =>
    match l.edges, assemble ls with
    | .ok es, .ok rest => .ok (es ++ rest)
    | .error e, _ => .error e
    | .ok _, .error e => .error e

/-- The command word the host drives at an edge; a reset edge carries none (R78). -/
def Edge.word? : Edge → Option CommandWord
  | .clean i => if i.rst then none else some (portWord i.cmd i.din)
  | .marginal => none

/-- A space or a tab. -/
def isBlank (c : Char) : Bool := c == ' ' || c == '\t'

/-- The words of a text, cut at blanks; `cur` is the word being read, backwards. -/
def wordsFrom : List Char → List Char → List (List Char)
  | cur, [] => if cur.isEmpty then [] else [cur.reverse]
  | cur, c :: cs =>
    if isBlank c then
      if cur.isEmpty then wordsFrom [] cs else cur.reverse :: wordsFrom [] cs
    else wordsFrom (c :: cur) cs

/-- The value of a digit character in a base. -/
def digitValue (base : Nat) (c : Char) : Option Nat :=
  let n := c.toNat
  let d :=
    if '0'.toNat ≤ n ∧ n ≤ '9'.toNat then some (n - '0'.toNat)
    else if 'a'.toNat ≤ n ∧ n ≤ 'f'.toNat then some (n - 'a'.toNat + 10)
    else if 'A'.toNat ≤ n ∧ n ≤ 'F'.toNat then some (n - 'A'.toNat + 10)
    else none
  d.filter (fun v => decide (v < base))

/-- The digits of a number, most significant first, after what has been read so far. -/
def digitsFrom (base : Nat) : Nat → List Char → Option Nat
  | acc, [] => some acc
  | acc, c :: cs =>
    match digitValue base c with
    | some d => digitsFrom base (acc * base + d) cs
    | none => none

/-- At least one digit. -/
def readDigits (base : Nat) (cs : List Char) : Option Nat :=
  if cs.isEmpty then none else digitsFrom base 0 cs

/-- A number in decimal, `0x` hex or `0b` binary (R76). -/
def readNumber : List Char → Option Nat
  | '0' :: 'x' :: cs => readDigits 16 cs
  | '0' :: 'b' :: cs => readDigits 2 cs
  | cs => readDigits 10 cs

/-- The annotation `tns=<value>` at the start of a comment (R76); any other comment is only a comment. R76 gives number forms for
`<imm8>` only: that `<value>` is read in the same three forms is a DESIGN CHOICE (log 8). -/
def readTns (comment : List Char) : Option Nat :=
  match wordsFrom [] comment with
  | ('t' :: 'n' :: 's' :: '=' :: cs) :: _ => readNumber cs
  | _ => none

/-- A line that carries one number. R76 gives the number forms of `<imm8>`; that the `<n>` of FILL and IDLE, of which R77 says only
`n >= 0`, is read in the same three forms is a DESIGN CHOICE (log 8). -/
def numbered (f : Nat → AsmLine) (arg : List Char) : Except AsmError (Option AsmLine) :=
  match readNumber arg with
  | some v => .ok (some (f v))
  | none => .error .notALine

/-- One line of text: `;` starts a comment, the case of the mnemonic does not matter (R76). A line with no command stands for no
edge (log 8). -/
def readLine (text : List Char) : Except AsmError (Option AsmLine) :=
  let code := text.takeWhile (· != ';')
  let comment := (text.dropWhile (· != ';')).tail
  match wordsFrom [] code with
  | [] => .ok none
  | [m] =>
    match m.map Char.toUpper with
    | ['N', 'O', 'P'] => .ok (some .nop)
    | ['S', 'E', 'E', 'D', 'T'] => .ok (some (.seedt (readTns comment)))
    | ['N', 'E', 'W', 'T'] => .ok (some (.seedt (readTns comment)))
    | ['N', 'E', 'X', 'T'] => .ok (some .next)
    | ['R', 'E', 'S', 'E', 'T'] => .ok (some .reset)
    | _ => .error .notALine
  | [m, arg] =>
    match m.map Char.toUpper with
    | ['S', 'E', 'E', 'D'] => numbered .seed arg
    | ['N', 'E', 'W'] => numbered .seed arg
    | ['F', 'I', 'L', 'L'] => numbered .fill arg
    | ['I', 'D', 'L', 'E'] => numbered .idle arg
    | _ => .error .notALine
  | _ :: _ :: _ :: _ => .error .notALine

end Sys2Proof.Machine
end

