-- ==== Sys2Proof/Machine/Observe.lean ====
section
/-! DEFINITION. The observation of a run (spec/70_reset_and_hazards.md R190, D25): what a host collects at the output ports, and the
registers at the end. -/

namespace Sys2Proof.Machine

/-- What a host that samples `dout` in each cycle with `dvalid = 1` collects over `n` edges, in edge order (R53, R190). -/
def observe : Nat → State → List Byte
  | 0, _ => []
  | n + 1, s =>
    match step s with
    | .next t => (if t.dvalidPort then [t.dout] else []) ++ observe n t
    | .fault _ => []
    | .refused _ => []

/-- The list of OUT values at the edges that executed NEXT, in edge order (R190's definition). -/
def nextOutputs : Nat → State → List Byte
  | 0, _ => []
  | n + 1, s =>
    match step s with
    | .next t => (if s.action = .command .next then [t.dout] else []) ++ nextOutputs n t
    | .fault _ => []
    | .refused _ => []

/-- A finite run: the host supplies these edges and the block takes exactly that many steps (R58, R190). -/
def runEdges (es : List Edge) (s : State) : Host.Outcome State Fault Refusal :=
  Host.Core.run Sys2Proof.core es.length (s.present es)

/-- The outputs a host collects over the edges it supplies (R190). -/
def outputsOf (es : List Edge) (s : State) : List Byte := observe es.length (s.present es)

/-- The registers at the end of a finite run (R190). -/
def finalRegisters (es : List Edge) (s : State) : Option Registers :=
  match runEdges es s with
  | .next t => some t.regs
  | .fault _ => none
  | .refused _ => none

/-- The edges of `SEED v` and then `k` NEXT commands, the shape of the sequence rules (R24, R111, R116). -/
def sequenceEdges (v : Byte) (k : Nat) : List Edge :=
  commandEdge (.seed v) :: List.replicate k (commandEdge .next)

end Sys2Proof.Machine
end

