-- ==== Sys2Proof/Machine/Platform.lean ====
section
/-! DEFINITION. A platform of several blocks (spec/00_scope.md R11, spec/60_exceptions.md R159): each block is one State of its own,
with its own ports, clock edges and reset; nothing is shared. `N_INST` is the number of units. -/

namespace Sys2Proof.Machine

/-- The blocks of a platform (R159). -/
structure Platform where
  units : List State
deriving DecidableEq, Repr

/-- `N_INST`, at least 1 (R11). -/
def Platform.nInst (p : Platform) : Nat := p.units.length

/-- A platform contains at least one block (R11), and no two of them stand at the same site: each has ports, and so a time
source and a host, of its own (R159; log 3). -/
def Platform.WellFormed (p : Platform) : Prop :=
  1 ≤ p.nInst ∧ (p.units.map State.site).Nodup

/-- `n` blocks right after each one's own reset (R159). -/
def Platform.atReset (n : Nat) : Platform :=
  { units := (List.range n).map fun k => { State.reset with site := k } }

/-- What happens at a platform, one thing at a time. -/
inductive PlatformEvent where
  /-- A rising edge at one block, with what each driving host presents on that block's port. -/
  | edge (unit : Nat) (drives : List Edge)
  /-- One block loses power and gets it back (R161, R182). -/
  | powerCycle (unit : Nat)
deriving DecidableEq, Repr

/-- One block's part of an event. Two hosts driving one port at once have no meaning and are refused (R60, R151, U5). -/
def unitEvent (drives : List Edge) (u : State) : Host.Outcome State Fault Refusal :=
  match drives with
  | [] => step u
  | [e] => step (u.present [e])
  | _ :: _ :: _ => .refused .twoDrivers

/-- The platform with one block replaced. -/
def Platform.setUnit (p : Platform) (k : Nat) (u : State) : Platform := { units := p.units.set k u }

/-- One event: it reaches one block and no other (R159). -/
def Platform.apply (p : Platform) : PlatformEvent → Host.Outcome Platform Fault Refusal
  | .edge k drives =>
    match p.units[k]? with
    | none => .refused .noSuchUnit
    | some u =>
      match unitEvent drives u with
      | .next u' => .next (p.setUnit k u')
      | .fault r => .fault r
      | .refused r => .refused r
  | .powerCycle k =>
    match p.units[k]? with
    | none => .refused .noSuchUnit
    | some u => .next (p.setUnit k u.powerCycle)

end Sys2Proof.Machine
end

