-- ==== Sys2Proof/Safety.lean ====
section
/-! DEFINITION. The terms claims are stated in: what a safe run is, the step function of spec/10_state.md R41 written out a second
time from the rules' own formulas, the recurrence of R111, and the invariant every edge keeps. -/

namespace Sys2Proof.Machine

/-- A run of `n` edges goes on to its end: no fault, no refusal (spec/60_exceptions.md R150, R151). -/
def RunsOn (n : Nat) (s : State) : Prop := ∃ t, Host.Core.run Sys2Proof.core n s = .next t

/-- The host's duty of spec/70_reset_and_hazards.md R188, "A claim about a run assumes no such edge" (U4). -/
def StableEdges (es : List Edge) : Prop := ∀ e ∈ es, e ≠ .marginal

/-- The edge, presented in `s`, constructs a generator with seed `v`: SEED with that byte, or SEEDT whose draw is that byte
(R90, R92), in a block that has been reset since power-up (R185). -/
def Constructs (s : State) (e : Edge) (v : Byte) : Prop :=
  s.awaitingReset = false ∧
    (e.action = .command (.seed v) ∨ (e.action = .command .seedt ∧ (s.present [e]).draw8 = v))

/-- Only NEXT and NOP edges: "no construction or reset between" (R24). -/
def Unbroken (es : List Edge) : Prop :=
  ∀ e ∈ es, e.action = .command .next ∨ e.action = .command .nop

/-- How many of the edges execute NEXT. -/
def countNext (es : List Edge) : Nat := es.countP fun e => e.action = .command .next

/-- The edge is stable and draws nothing from outside: a SEEDT edge names its time count (R93: a claim "names the draw in its
premise"). -/
def DrawNamed (e : Edge) : Prop :=
  e ≠ .marginal ∧ (e.action = .command .seedt → ∃ v, e.namedTns = some v)

/-- The period of WEYL for a seed: `256 / gcd(s, 256)` with `gcd(0, 256) = 256` (R25). -/
def weylPeriod (v : Byte) : Nat := 256 / Nat.gcd v.toNat 256

/-- The recurrence of R111: `STATE_0 = 0x00`, `STATE_k = add8(mul8(STATE_{k-1}, STATE_{k-1}), (k * s) mod 256)`. -/
def stateAfter (v : Byte) : Nat → Nat
  | 0 => 0
  | k + 1 => ((stateAfter v k * stateAfter v k) % 256 + ((k + 1) * v.toNat) % 256) % 256

/-- The nibble swap of a number below 256, by R14's formulas: `floor(v / 16)` and `(v * 16) mod 256`. -/
def swapNibbles (v : Nat) : Nat := v / 16 ||| (v * 16) % 256

/-- The step of R41 on the six registers, in exact arithmetic narrowed at each step as R14, R90, R92, R110, R140 and R180 write
it; `w` is the command word as a number, `t` the draw. -/
def ruleStep (r : Registers) (rst : Bool) (w : Nat) (t : Byte) : Registers :=
  if rst then { seed := 0#8, weyl := 0#8, state := 0#8, out := 0#8, dvalid := false, seeded := false }
  else if w / 256 = 0 then { r with dvalid := false }
  else if w / 256 = 1 then
    { seed := BitVec.ofNat 8 (w % 256), weyl := 0#8, state := 0#8, out := r.out, dvalid := false, seeded := true }
  else if w / 256 = 2 then { seed := t, weyl := 0#8, state := 0#8, out := r.out, dvalid := false, seeded := true }
  else
    let a := (r.weyl.toNat + r.seed.toNat) % 256
    let b := ((r.state.toNat * r.state.toNat) % 256 + a) % 256
    { seed := r.seed, weyl := BitVec.ofNat 8 a, state := BitVec.ofNat 8 b, out := BitVec.ofNat 8 (swapNibbles b),
      dvalid := true, seeded := r.seeded }

/-- `ruleStep` on a sampled input, with `t` as the draw where the input names no time count. -/
def ruleStepInput (r : Registers) (i : Input) (t : Byte) : Registers :=
  ruleStep r i.rst (i.cmd.toNat * 256 + i.din.toNat)
    (match i.tns with
     | some v => BitVec.ofNat 8 v
     | none => t)

/-- What holds of the registers after every stable edge from reset. -/
structure GeneratorInv (r : Registers) : Prop where
  /-- DVALID = 1 only where OUT is the swap of STATE (R26, R30). -/
  fresh : r.dvalid = true → r.out = swap4 r.state
  /-- Before the first construction the block is the seed-0 generator with output 0x00 (R184, R119). -/
  unseeded : r.seeded = false → r.seed = 0#8 ∧ r.weyl = 0#8 ∧ r.state = 0#8 ∧ r.out = 0#8
  /-- WEYL is a multiple of SEED (R24). -/
  weylMultiple : ∃ k : Byte, r.weyl = k * r.seed
  /-- STATE is a multiple of SEED (R111). -/
  stateMultiple : ∃ k : Byte, r.state = k * r.seed

/-- The invariant every edge keeps: the registers' one wherever they are specified at all, under the host's duty for every edge it
has listed. -/
structure Inv (s : State) : Prop where
  /-- R188: every listed edge is stable. -/
  stable : StableEdges s.inputs
  /-- The registers' invariant, unless a reset is outstanding since power-up (R182). -/
  generator : s.awaitingReset = false → GeneratorInv s.regs

end Sys2Proof.Machine
end

