-- ==== Sys2Proof/Certificates/Slice0/Obligations.lean ====
section
/-! DEFINITION. The statements for the provers, from the numbered rules of spec/. -/

open Sys2Proof Sys2Proof.Machine

/-! ## Encoding -/

/-- R75 with the map of R73: each of the 1024 words is exactly one command. -/
def Obligations.EveryWordDecodesByItsOpcode : Prop :=
  ∀ w : CommandWord,
    (opField w = 0b00#2 → decode w = .nop) ∧
    (opField w = 0b01#2 → decode w = .seed (immField w)) ∧
    (opField w = 0b10#2 → decode w = .seedt) ∧
    (opField w = 0b11#2 → decode w = .next) ∧
    (opField w).toNat = w.toNat / 256 ∧ (immField w).toNat = w.toNat % 256

/-- Words written out bit by bit from R75's patterns, one or more per command. -/
def Obligations.WrittenOutWordsDecode : Prop :=
  decode 0b0000000000#10 = .nop ∧ decode 0b0011111111#10 = .nop ∧
  decode 0b0101011010#10 = .seed 0x5A#8 ∧ decode 0b0100000000#10 = .seed 0x00#8 ∧
  decode 0b0111111111#10 = .seed 0xFF#8 ∧
  decode 0b1000000000#10 = .seedt ∧ decode 0b1011000011#10 = .seedt ∧
  decode 0b1100000000#10 = .next ∧ decode 0b1111111111#10 = .next

/-- R78 and R75: the assembler's words, that they lie in the table's rows, that decoding an encoding gives the command back, and
that encoding a decoded word gives the canonical word of the same command, the word itself where it is a SEED (R74). -/
def Obligations.DecodeAndEncodeAgree : Prop :=
  (∀ i : Instr, decode (encode i) = i ∧ encode i &&& matchMask = matchBits i) ∧
  (∀ (w : CommandWord) (i : Instr), decode w = i ↔ w &&& matchMask = matchBits i ∧ (∀ v, i = .seed v → immField w = v)) ∧
  (∀ w : CommandWord, encode (decode w) = if opField w = 0b01#2 then w else portWord (opField w) 0x00#8)

/-- R74: on NOP, SEEDT and NEXT any value of the immediate selects the same command, with the same effect of the edge. -/
def Obligations.IgnoredImmediateHasNoEffect : Prop :=
  ∀ (op : Opcode) (d d' : Byte) (tns : Option Nat) (s : State), op ≠ 0b01#2 →
    decode (portWord op d) = decode (portWord op d') ∧
    step (s.present [.clean { rst := false, cmd := op, din := d, tns := tns }])
      = step (s.present [.clean { rst := false, cmd := op, din := d', tns := tns }])

/-- The words a line of a host program stands for (R78, R76), and its edges: a seed outside 0 to 255 is an error. -/
def Obligations.AssemblerEmitsTheWords : Prop :=
  (AsmLine.edges .nop).map (List.map Edge.word?) = .ok [some 0x000#10] ∧
  (∀ v, v ≤ 255 → (AsmLine.edges (.seed v)).map (List.map Edge.word?) = .ok [some (0x100#10 ||| BitVec.ofNat 10 v)]) ∧
  (∀ v, 255 < v → AsmLine.edges (.seed v) = .error (.seedOutOfRange v)) ∧
  (∀ tns, (AsmLine.edges (.seedt tns)).map (List.map Edge.word?) = .ok [some 0x200#10]) ∧
  (AsmLine.edges .next).map (List.map Edge.word?) = .ok [some 0x300#10] ∧
  (AsmLine.edges .reset).map (List.map Edge.word?) = .ok [none] ∧
  (AsmLine.edges .reset).map (List.map Edge.action) = .ok [.reset]

/-- A number that is no command word is rejected by name, every command word is accepted (R70). -/
def Obligations.OnlyTenBitNumbersAreCommandWords : Prop :=
  ∀ nbits w : Nat,
    (1024 ≤ w → decodeNumber w = .error .widerThanTenBits ∧ decodeTableWord nbits w = none) ∧
    (w < 1024 → decodeTableWord nbits w = some (decode (BitVec.ofNat 10 w)))

/-! ## The step

A statement about what a block does with a command has the premise `s.awaitingReset = false`: a reset has come since power-up
(R182's launch premise, R185). What happens before that reset is the statement RegistersUnspecifiedUntilTheFirstReset. -/

/-- R41: with `rst = 0` a step is the rule of the command on the ports, and then the host's list moves on by one edge. -/
def Obligations.StepRunsTheDecodedCommand : Prop :=
  ∀ (s : State) (i : Input), s.awaitingReset = false → s.presented = .clean i → i.rst = false →
    ∃ t, exec (decode (portWord i.cmd i.din)) s = .next t ∧
      step s = .next { t with inputs := t.inputs.tail, edges := t.edges + 1 } ∧
      t.inputs = s.inputs ∧ t.edges = s.edges ∧ t.site = s.site ∧ t.awaitingReset = false

/-- The word the host places is the one the very next step runs. -/
def Obligations.PlacedWordRunsNext : Prop :=
  ∀ (s : State) (nbits w : Nat), s.awaitingReset = false → w < 1024 →
    ∃ i t, decodeTableWord nbits w = some i ∧ exec i (s.withFetchWord nbits w) = .next t ∧
      step (s.withFetchWord nbits w) = .next { t with inputs := s.inputs.tail, edges := s.edges + 1 } ∧
      (s.withFetchWord nbits w).regs = s.regs

/-- R41's step: on every stable edge the model's step is the rules' step on the six registers, in exact arithmetic. -/
def Obligations.StepRefinesTheRules : Prop :=
  ∀ (s : State) (i : Input), s.presented = .clean i → s.awaitingReset = false ∨ i.rst = true →
    ∃ t, step s = .next t ∧
      t.regs = ruleStepInput s.regs i (BitVec.ofNat 8 (Config.timeSrc s.site s.edges).toNat) ∧
      t.inputs = s.inputs.tail ∧ t.edges = s.edges + 1 ∧ t.site = s.site ∧ t.awaitingReset = false

/-- R58: the registers after `n` stable edges are the left fold of R41's step over the `n` inputs in edge order. Stated for
inputs that name the time count, so that the fold has no other argument. -/
def Obligations.RunIsTheLeftFoldOfTheRules : Prop :=
  ∀ (s : State) (is : List Input), s.awaitingReset = false → (∀ i ∈ is, i.tns ≠ none) →
    ∃ t, runEdges (is.map .clean) s = .next t ∧
      t.regs = is.foldl (fun r i => ruleStepInput r i 0x00#8) s.regs ∧ t.inputs = s.inputs

/-- R151 and R119: no edge of any run ends in a fault or a refusal, for any state and any inputs, without a limit on count. -/
def Obligations.EveryRunGoesOn : Prop :=
  ∀ (n : Nat) (s : State), RunsOn n s ∧
    ∀ t, Host.Core.run Sys2Proof.core n s = .next t → t.edges = s.edges + n ∧ t.inputs = s.inputs.drop n ∧ t.site = s.site

/-- U4 and R40: after an edge that broke the sampling window the run goes on, with the host's side as after any edge; the six
registers are whatever the free value holds, and a reset that was outstanding still is. -/
def Obligations.MarginalEdgeLeavesAnyRegisters : Prop :=
  ∀ s : State, s.presented = .marginal →
    step s = .next
      { regs := Config.anyRegisters (if s.awaitingReset then .powerUp else .marginalEdge) s.site s.edges
        awaitingReset := s.awaitingReset, inputs := s.inputs.tail, edges := s.edges + 1, site := s.site }

/-! ## Reset -/

/-- R37: the reset value of every register. The fields `inputs`, `edges` and `site` are the model's own choice (logs 2, 3) and
not part of the statement. -/
def Obligations.ResetStateRegisters : Prop :=
  State.reset.regs.seed = 0x00#8 ∧ State.reset.regs.weyl = 0x00#8 ∧ State.reset.regs.state = 0x00#8 ∧
  State.reset.regs.out = 0x00#8 ∧ State.reset.regs.dvalid = false ∧ State.reset.regs.seeded = false

/-- R153 and R180: with `rst = 1` the edge performs the reset action from every state, and `cmd`, `din` and `tns` have no effect. -/
def Obligations.ResetWinsOverTheCommand : Prop :=
  ∀ (s : State) (cmd : Opcode) (din : Byte) (tns : Option Nat),
    step (s.present [.clean { rst := true, cmd := cmd, din := din, tns := tns }])
      = .next { regs := { seed := 0x00#8, weyl := 0x00#8, state := 0x00#8, out := 0x00#8, dvalid := false, seeded := false },
                awaitingReset := false, inputs := s.inputs, edges := s.edges + 1, site := s.site }

/-- R181: any positive number of reset edges leaves what one leaves, and the first edge with `rst = 0` after them executes its
command against the reset registers. -/
def Obligations.HeldResetIsOneReset : Prop :=
  ∀ (s : State) (es : List Edge) (e : Edge) (i : Instr), es ≠ [] → (∀ f ∈ es, f.action = .reset) →
    e.action = .command i →
    ∃ t u v, runEdges es s = .next t ∧ t.regs = Registers.reset ∧
      exec i ((t.present [e])) = .next u ∧ runEdges (es ++ [e]) s = .next v ∧ v.regs = u.regs

/-- R184: the state after reset against the state after `SEED 0x00`; and NEXT without a construction gives 0x00. -/
def Obligations.ResetDiffersFromSeedZeroInSeededAndOut : Prop :=
  ∀ (s : State) (e f g : Edge), s.awaitingReset = false → e.action = .reset →
    f.action = .command (.seed 0x00#8) → g.action = .command .next →
    ∃ t u v, step (s.present [e]) = .next t ∧ step (s.present [f]) = .next u ∧ step (t.present [g]) = .next v ∧
      t.regs.seed = 0x00#8 ∧ t.regs.weyl = 0x00#8 ∧ t.regs.state = 0x00#8 ∧ t.regs.dvalid = false ∧
      u.regs.seed = 0x00#8 ∧ u.regs.weyl = 0x00#8 ∧ u.regs.state = 0x00#8 ∧ u.regs.dvalid = false ∧
      t.regs.seeded = false ∧ u.regs.seeded = true ∧ t.regs.out = 0x00#8 ∧ u.regs.out = s.regs.out ∧
      v.regs.out = 0x00#8 ∧ v.regs.dvalid = true

/-- R119, R184, D8: after a reset and before any construction, every NEXT returns 0x00 and the generator does not move. -/
def Obligations.UnseededBlockEmitsZeros : Prop :=
  ∀ (s : State) (e : Edge) (es : List Edge), e.action = .reset → Unbroken es →
    outputsOf (e :: es) s = List.replicate (countNext es) 0x00#8 ∧
    ∃ t, runEdges (e :: es) s = .next t ∧ t.regs.seed = 0x00#8 ∧ t.regs.weyl = 0x00#8 ∧ t.regs.state = 0x00#8 ∧
      t.regs.out = 0x00#8 ∧ t.regs.seeded = false

/-- R182 and vector TR1: whatever the registers hold, after power-up too, one edge with `rst = 1` defines them all. -/
def Obligations.ResetDefinesRegistersAfterPowerUp : Prop :=
  ∀ (s : State) (e : Edge), e.action = .reset →
    (∃ t, step (s.present [e]) = .next t ∧ t.regs = Registers.reset) ∧
    (∃ t, step (s.powerCycle.present [e]) = .next t ∧ t.regs = Registers.reset ∧ t.awaitingReset = false)

/-- R182, R161, U3 with the free value of log 6: a power cycle leaves every register unspecified, and so does every edge after it,
whatever its command, until the first edge with `rst = 1`, which defines them all. That the free value is drawn anew at each edge,
and that a marginal edge is no reset, is the model's choice (logs 4, 6). -/
def Obligations.RegistersUnspecifiedUntilTheFirstReset : Prop :=
  (∀ s : State, s.powerCycle.awaitingReset = true ∧
    s.powerCycle.regs = Config.anyRegisters .powerUp s.site s.edges) ∧
  ∀ (s : State) (es : List Edge) (e : Edge), s.awaitingReset = true → (∀ f ∈ es, f.action ≠ .reset) → e.action = .reset →
    ∃ t u, runEdges es s = .next t ∧ t.awaitingReset = true ∧
      (es ≠ [] → t.regs = Config.anyRegisters .powerUp s.site (s.edges + es.length - 1)) ∧
      runEdges (es ++ [e]) s = .next u ∧ u.awaitingReset = false ∧ u.regs = Registers.reset

/-! ## Construction -/

/-- R90: SEED's encoding and its effect on the whole state, OUT and everything around the registers kept. -/
def Obligations.SeedConstructsGenerator : Prop :=
  ∀ (s : State) (v : Byte),
    decode (portWord 0b01#2 v) = .seed v ∧
    exec (.seed v) s = .next { s with regs :=
      { seed := v, weyl := 0x00#8, state := 0x00#8, out := s.regs.out, dvalid := false, seeded := true } }

/-- R92: SEEDT's encoding, its draw (the low 8 bits of the count on the time port, named by the edge or the platform's free draw,
the bits above ignored), and its effect on the whole state. -/
def Obligations.SeedtConstructsFromTheDraw : Prop :=
  ∀ (s : State) (imm8 : Byte),
    decode (portWord 0b10#2 imm8) = .seedt ∧
    s.draw8 = (match s.presented.namedTns with
      | some v => BitVec.ofNat 8 v
      | none => (Config.timeSrc s.site s.edges).setWidth 8) ∧
    exec .seedt s = .next { s with regs :=
      { seed := s.draw8, weyl := 0x00#8, state := 0x00#8, out := s.regs.out, dvalid := false, seeded := true } }

/-- R16, R52, R92: the draw is the low byte of the time port: of the count the edge names, and of the platform's free draw, at
every width of the port, where it names none. -/
def Obligations.DrawIsTheLowByteOfTheTimePort : Prop :=
  ∀ s : State,
    (∀ v, s.presented.namedTns = some v → s.draw8.toNat = v % 256) ∧
    (s.presented.namedTns = none → s.draw8 = (Config.timeSrc s.site s.edges).setWidth 8) ∧
    8 ≤ Config.timeW

/-- R94: SEEDT with the draw `t` has the effect of SEED `t`, on every register, at the same edge. -/
def Obligations.SeedtEqualsSeedOfTheDraw : Prop :=
  ∀ (s : State) (e e' : Edge) (t : Byte),
    e.action = .command .seedt → (s.present [e]).draw8 = t → e'.action = .command (.seed t) →
    step (s.present [e]) = step (s.present [e'])

/-- R93: every byte is a possible and legal draw at every SEEDT, 0x00 and a repeated one among them; SEEDT never fails. -/
def Obligations.EveryDrawIsLegal : Prop :=
  ∀ (s : State) (t : Byte), s.awaitingReset = false →
    ∃ e u w, e.action = .command .seedt ∧ step (s.present [e]) = .next u ∧ u.regs.seed = t ∧
      step (u.present [e]) = .next w ∧ w.regs.seed = t

/-- R91: a construction abandons the old generator: whatever came before, what follows is the new seed's sequence from its
start. -/
def Obligations.ConstructionRestartsTheSequence : Prop :=
  ∀ (s : State) (before : List Edge) (v : Byte) (k : Nat), s.awaitingReset = false →
    outputsOf (before ++ sequenceEdges v k) s = outputsOf before s ++ outputsOf (sequenceEdges v k) State.reset ∧
    (outputsOf (sequenceEdges v k) State.reset).length = k

/-! ## Generation -/

/-- R110: NEXT's encoding and its effect on the whole state. -/
def Obligations.NextAdvancesGenerator : Prop :=
  ∀ (s : State) (imm8 : Byte),
    decode (portWord 0b11#2 imm8) = .next ∧
    exec .next s = .next { s with regs :=
      { seed := s.regs.seed
        weyl := s.regs.weyl + s.regs.seed
        state := s.regs.state * s.regs.state + (s.regs.weyl + s.regs.seed)
        out := swap4 (s.regs.state * s.regs.state + (s.regs.weyl + s.regs.seed))
        dvalid := true
        seeded := s.regs.seeded } }

/-- The source's rotation example as the spec derives it: R110's example and vector V1's trace B. -/
def Obligations.RotationExampleOfTheSource : Prop :=
  (∀ s : State, s.awaitingReset = false → ∃ t, runEdges (sequenceEdges 0xB2#8 1) s = .next t ∧
    t.regs.weyl = 0xB2#8 ∧ t.regs.state = 0xB2#8 ∧ t.regs.out = 0x2B#8) ∧
  (∀ s : State, s.regs.seed = 0x03#8 → s.regs.weyl = 0x1E#8 → s.regs.state = 0x57#8 →
    ∃ t u, exec .next s = .next t ∧ t.regs.weyl = 0x21#8 ∧ t.regs.state = 0xB2#8 ∧ t.regs.out = 0x2B#8 ∧
      exec .next t = .next u ∧ u.regs.state = 0xE8#8 ∧ u.regs.out = 0x8E#8)

/-- R115: NEXT never reads DVALID, SEEDED or OUT; and NOP edges anywhere do not change the outputs. -/
def Obligations.OutputIgnoresFlagsAndNops : Prop :=
  (∀ s s' : State, s.regs.seed = s'.regs.seed → s.regs.weyl = s'.regs.weyl → s.regs.state = s'.regs.state →
    ∃ t t', exec .next s = .next t ∧ exec .next s' = .next t' ∧
      t.regs.seed = t'.regs.seed ∧ t.regs.weyl = t'.regs.weyl ∧ t.regs.state = t'.regs.state ∧
      t.regs.out = t'.regs.out ∧ t.regs.dvalid = t'.regs.dvalid) ∧
  (∀ (s : State) (es : List Edge), s.awaitingReset = false → (∀ e ∈ es, DrawNamed e) →
    outputsOf es s = outputsOf (es.filter fun e => e.action ≠ .command .nop) s)

/-- R26 and R36: after a NEXT, OUT is the swap of STATE as stored, so OUT reveals STATE; STATE[7] reaches OUT[3] and nothing
that follows. -/
def Obligations.OutRevealsStateAndTopBitIsLost : Prop :=
  ∀ (s : State) (e : Edge), s.awaitingReset = false → e.action = .command .next →
    ∃ t, step (s.present [e]) = .next t ∧ t.regs.out = swap4 t.regs.state ∧ t.regs.state = swap4 t.regs.out ∧
      t.regs.out.getLsbD 3 = t.regs.state.getLsbD 7 ∧
      step (({ s with regs := { s.regs with state := s.regs.state ^^^ 0x80#8 } } : State).present [e]) = .next t

/-- R14: the primitives are exact arithmetic narrowed modulo 256. -/
def Obligations.PrimitivesAreExactModulo256 : Prop :=
  ∀ (a b : Byte) (k : Nat),
    (add8 a b).toNat = (a.toNat + b.toNat) % 256 ∧
    (mul8 a b).toNat = (a.toNat * b.toNat) % 256 ∧
    (shr8 a k).toNat = a.toNat / 2 ^ k ∧
    (shl8 a k).toNat = (a.toNat * 2 ^ k) % 256 ∧
    (or8 a b).toNat = a.toNat ||| b.toNat ∧
    swap4 a = or8 (shr8 a 4) (shl8 a 4)

/-- R112: the nibble swap exchanges the nibbles, is either rotation by four, is its own inverse and so a bijection, and its OR is
also a sum of two values without a common bit. -/
def Obligations.NibbleSwapLaws : Prop :=
  (∀ v : Byte, swap4 v = v.extractLsb' 0 4 ++ v.extractLsb' 4 4 ∧
    swap4 v = v.rotateLeft 4 ∧ swap4 v = v.rotateRight 4 ∧ swap4 (swap4 v) = v ∧
    shr8 v 4 &&& shl8 v 4 = 0x00#8 ∧ swap4 v = add8 (shr8 v 4) (shl8 v 4)) ∧
  Function.Bijective swap4 ∧
  swap4 0x00#8 = 0x00#8 ∧ swap4 0x01#8 = 0x10#8 ∧ swap4 0x0F#8 = 0xF0#8 ∧ swap4 0x80#8 = 0x08#8 ∧
  swap4 0xA5#8 = 0x5A#8 ∧ swap4 0xB2#8 = 0x2B#8 ∧ swap4 0xFF#8 = 0xFF#8

/-- R114: the middle square depends on the low seven bits, is 1 modulo 8 for an odd byte and 0 for a multiple of 16. -/
def Obligations.MiddleSquareLaws : Prop :=
  (∀ v : Byte, mul8 v v = mul8 (v ^^^ 0x80#8) (v ^^^ 0x80#8) ∧
    (v.toNat % 2 = 1 → (mul8 v v).toNat % 8 = 1) ∧ (v.toNat % 16 = 0 → mul8 v v = 0x00#8)) ∧
  mul8 0x00#8 0x00#8 = 0x00#8 ∧ mul8 0x01#8 0x01#8 = 0x01#8 ∧ mul8 0x0F#8 0x0F#8 = 0xE1#8 ∧
  mul8 0x11#8 0x11#8 = 0x21#8 ∧ mul8 0x7F#8 0x7F#8 = 0x01#8 ∧ mul8 0x80#8 0x80#8 = 0x00#8 ∧
  mul8 0x81#8 0x81#8 = 0x01#8 ∧ mul8 0xB2#8 0xB2#8 = 0xC4#8

/-! ## Sequences -/

/-- R24: after a construction with `v` and then NEXT and NOP edges only, WEYL = (k * v) mod 256 for the number k of NEXTs, and
SEED is still `v`. -/
def Obligations.WeylClosedForm : Prop :=
  ∀ (s : State) (e : Edge) (v : Byte) (es : List Edge), Constructs s e v → Unbroken es →
    ∃ t, runEdges (e :: es) s = .next t ∧ t.regs.weyl.toNat = (countNext es * v.toNat) % 256 ∧ t.regs.seed = v

/-- R25: WEYL takes the same value exactly at numbers of NEXTs that agree modulo 256 / gcd(v, 256); and the sizes of that
period. -/
def Obligations.WeylPeriodIsExact : Prop :=
  (∀ (s : State) (e : Edge) (v : Byte) (es es' : List Edge), Constructs s e v → Unbroken es → Unbroken es' →
    ∃ t t', runEdges (e :: es) s = .next t ∧ runEdges (e :: es') s = .next t' ∧
      (t.regs.weyl = t'.regs.weyl ↔ countNext es % weylPeriod v = countNext es' % weylPeriod v)) ∧
  ∀ v : Byte, (v.toNat % 2 = 1 → weylPeriod v = 256) ∧ (v.toNat % 2 = 0 → v ≠ 0x00#8 → weylPeriod v ≤ 128) ∧
    (v = 0x00#8 → weylPeriod v = 1)

/-- R111: STATE and OUT after a construction follow the recurrence, and the outputs collected are the swaps of its terms in
order. -/
def Obligations.StateFollowsTheRecurrence : Prop :=
  ∀ (s : State) (e : Edge) (v : Byte) (es : List Edge), Constructs s e v → Unbroken es →
    (∃ t, runEdges (e :: es) s = .next t ∧ t.regs.state.toNat = stateAfter v (countNext es) ∧
      (countNext es ≠ 0 → t.regs.out.toNat = swapNibbles (stateAfter v (countNext es)))) ∧
    (outputsOf (e :: es) s).map BitVec.toNat
      = (List.range (countNext es)).map fun k => swapNibbles (stateAfter v (k + 1))

/-- R27: two blocks constructed with the same seed give the same outputs under the same commands, indefinitely, and end with
the same generator; whatever they held before and whichever of the two constructions each used. -/
def Obligations.SameSeedSameOutputs : Prop :=
  ∀ (s s' : State) (e e' : Edge) (v : Byte) (es : List Edge), Constructs s e v → Constructs s' e' v →
    (∀ f ∈ es, DrawNamed f) →
    outputsOf (e :: es) s = outputsOf (e' :: es) s' ∧
    ∃ t t', runEdges (e :: es) s = .next t ∧ runEdges (e' :: es) s' = .next t' ∧
      t.regs.seed = t'.regs.seed ∧ t.regs.weyl = t'.regs.weyl ∧ t.regs.state = t'.regs.state ∧
      t.regs.dvalid = t'.regs.dvalid ∧ t.regs.seeded = t'.regs.seeded

/-- R116: after a run-in of at most four NEXTs, (WEYL, STATE) and OUT repeat with period 256 / gcd(v, 256), and with no smaller
one. -/
def Obligations.SequencePeriodIsExact : Prop :=
  ∀ (s : State) (v : Byte), s.awaitingReset = false →
    (∀ k, 4 < k → ∃ t t', runEdges (sequenceEdges v k) s = .next t ∧
      runEdges (sequenceEdges v (k + weylPeriod v)) s = .next t' ∧
      t.regs.weyl = t'.regs.weyl ∧ t.regs.state = t'.regs.state ∧ t.regs.out = t'.regs.out) ∧
    (∀ q, 0 < q → q < weylPeriod v → ∀ n, ∃ k t t', n ≤ k ∧ runEdges (sequenceEdges v k) s = .next t ∧
      runEdges (sequenceEdges v (k + q)) s = .next t' ∧ t.regs.out ≠ t'.regs.out ∧ t.regs.state ≠ t'.regs.state)

/-- R117: the outputs of the seeds 0x00, 0x80, 0x40 and 0x10, at every number of NEXTs. -/
def Obligations.ShortPeriodSeeds : Prop :=
  ∀ (s : State) (k : Nat), s.awaitingReset = false → 0 < k →
    (∃ t, runEdges (sequenceEdges 0x00#8 k) s = .next t ∧ t.regs.weyl = 0x00#8 ∧ t.regs.state = 0x00#8 ∧
      t.regs.out = 0x00#8) ∧
    (∃ t, runEdges (sequenceEdges 0x80#8 k) s = .next t ∧ t.regs.out = if k % 2 = 1 then 0x08#8 else 0x00#8) ∧
    (∃ t, runEdges (sequenceEdges 0x40#8 k) s = .next t ∧ t.regs.out.toNat = 4 * (k % 4)) ∧
    (∃ t, runEdges (sequenceEdges 0x10#8 k) s = .next t ∧ t.regs.out.toNat = k % 16)

/-- R118: the corrected non-degeneracy property. -/
def Obligations.CorrectedNonDegeneracy : Prop :=
  ∀ (s : State) (v : Byte), s.awaitingReset = false →
    (v ≠ 0x00#8 → ∀ n, ∃ k t t', n ≤ k ∧ runEdges (sequenceEdges v k) s = .next t ∧
      runEdges (sequenceEdges v (k + 1)) s = .next t' ∧ t.regs.out ≠ t'.regs.out) ∧
    (v ≠ 0x00#8 → v ≠ 0x80#8 → ∀ q, 0 < q → q < 4 → ∀ n, ∃ k t t', n ≤ k ∧
      runEdges (sequenceEdges v k) s = .next t ∧ runEdges (sequenceEdges v (k + q)) s = .next t' ∧
      t.regs.out ≠ t'.regs.out) ∧
    (v.toNat % 2 = 1 → (∀ k, 4 < k → ∃ t t', runEdges (sequenceEdges v k) s = .next t ∧
        runEdges (sequenceEdges v (k + 256)) s = .next t' ∧ t.regs.out = t'.regs.out) ∧
      ∀ q, 0 < q → q < 256 → ∀ n, ∃ k t t', n ≤ k ∧ runEdges (sequenceEdges v k) s = .next t ∧
        runEdges (sequenceEdges v (k + q)) s = .next t' ∧ t.regs.out ≠ t'.regs.out) ∧
    (v = 0x80#8 → ∀ k, 0 < k → ∃ t t', runEdges (sequenceEdges v k) s = .next t ∧
      runEdges (sequenceEdges v (k + 2)) s = .next t' ∧ t.regs.out = t'.regs.out)

/-! ## Idle, flags, outputs -/

/-- R140: NOP's encoding, the undriven bus among it, and its effect on the whole state. -/
def Obligations.NopClearsDvalidOnly : Prop :=
  ∀ (s : State) (imm8 : Byte),
    decode (portWord 0b00#2 imm8) = .nop ∧ decode 0x000#10 = .nop ∧
    exec .nop s = .next { s with regs :=
      { seed := s.regs.seed, weyl := s.regs.weyl, state := s.regs.state, out := s.regs.out, dvalid := false,
        seeded := s.regs.seeded } }

/-- R161: while only NOP is presented, every register but DVALID holds its value, for any number of edges. -/
def Obligations.IdleHoldsTheGenerator : Prop :=
  ∀ (s : State) (es : List Edge), s.awaitingReset = false → (∀ e ∈ es, e.action = .command .nop) →
    outputsOf es s = [] ∧
    ∃ t, runEdges es s = .next t ∧
      t.regs = { s.regs with dvalid := if es = [] then s.regs.dvalid else false }

/-- R30: after a stable edge DVALID = 1 exactly where it executed NEXT, and OUT then holds that NEXT's result; no command reads
DVALID. -/
def Obligations.DvalidMarksTheEdgeAfterNext : Prop :=
  (∀ (s : State) (e : Edge), s.awaitingReset = false → e ≠ .marginal →
    ∃ t, step (s.present [e]) = .next t ∧ (t.dvalidPort = true ↔ e.action = .command .next) ∧
      (e.action = .command .next →
        t.dout = swap4 (s.regs.state * s.regs.state + (s.regs.weyl + s.regs.seed)))) ∧
  ∀ (i : Instr) (s : State) (b : Bool), exec i { s with regs := { s.regs with dvalid := b } } = exec i s

/-- R31: SEEDED is set by a construction, cleared by a reset, kept by NEXT and NOP, and has no effect on any command. -/
def Obligations.SeededTellsOfAConstruction : Prop :=
  (∀ (s : State) (e : Edge), s.awaitingReset = false → e ≠ .marginal →
    ∃ t, step (s.present [e]) = .next t ∧
      ((∃ v, Constructs s e v) → t.seededPort = true) ∧ (e.action = .reset → t.seededPort = false) ∧
      (e.action = .command .next ∨ e.action = .command .nop → t.seededPort = s.seededPort)) ∧
  ∀ (i : Instr) (s : State) (b : Bool),
    ∃ t t', exec i s = .next t ∧ exec i { s with regs := { s.regs with seeded := b } } = .next t' ∧
      t'.regs.seed = t.regs.seed ∧ t'.regs.weyl = t.regs.weyl ∧ t'.regs.state = t.regs.state ∧
      t'.regs.out = t.regs.out ∧ t'.regs.dvalid = t.regs.dvalid

/-- The column "written by" of the table of 10_state.md section 1, with R20, R21, R22, R31, R32 and R187: on a stable edge, each
register that changes was changed by a command the table names for it. -/
def Obligations.RegistersChangeOnlyByTheirWriters : Prop :=
  ∀ (s : State) (e : Edge), s.awaitingReset = false → e ≠ .marginal →
    ∃ t, step (s.present [e]) = .next t ∧ t.inputs = s.inputs ∧
      (t.regs.seed ≠ s.regs.seed → (∃ v, Constructs s e v) ∨ e.action = .reset) ∧
      (t.regs.weyl ≠ s.regs.weyl → (∃ v, Constructs s e v) ∨ e.action = .command .next ∨ e.action = .reset) ∧
      (t.regs.state ≠ s.regs.state → (∃ v, Constructs s e v) ∨ e.action = .command .next ∨ e.action = .reset) ∧
      (t.regs.out ≠ s.regs.out → e.action = .command .next ∨ e.action = .reset) ∧
      (t.regs.seeded ≠ s.regs.seeded → (∃ v, Constructs s e v) ∨ e.action = .reset)

/-- R39: the outputs are the registers, and nothing on the inputs reaches them before an edge. -/
def Obligations.OutputsComeFromRegistersOnly : Prop :=
  ∀ (s : State) (es : List Edge),
    s.dout = s.regs.out ∧ s.dvalidPort = s.regs.dvalid ∧ s.seededPort = s.regs.seeded ∧
    (s.present es).dout = s.dout ∧ (s.present es).dvalidPort = s.dvalidPort ∧
    (s.present es).seededPort = s.seededPort

/-- R57: which commands are idempotent. -/
def Obligations.IdempotencyOfCommands : Prop :=
  (∀ (s : State) (v : Byte), ∃ t, exec (.seed v) s = .next t ∧ exec (.seed v) t = .next t) ∧
  (∀ s : State, ∃ t, exec .nop s = .next t ∧ exec .nop t = .next t) ∧
  (∀ s : State, s.awaitingReset = false → ∃ e e' t u, e.action = .command .seedt ∧ e'.action = .command .seedt ∧
    runEdges [e] s = .next t ∧ runEdges [e, e'] s = .next u ∧ t.regs ≠ u.regs) ∧
  (∃ s t u : State, exec .next s = .next t ∧ exec .next t = .next u ∧ t.regs ≠ u.regs)

/-! ## Runs, programs' notation, platform -/

/-- R190: on stable edges, what a host collects by sampling `dout` with `dvalid = 1` is the list of OUT values at the edges that
executed NEXT, one for each. -/
def Obligations.TwoObservationsAgree : Prop :=
  ∀ (s : State) (es : List Edge), s.awaitingReset = false → StableEdges es →
    outputsOf es s = nextOutputs es.length (s.present es) ∧ (outputsOf es s).length = countNext es

/-- R77 and R53: `FILL n` takes n edges and yields exactly n bytes, in order; `FILL 0` none; `IDLE n` none. -/
def Obligations.FillYieldsExactlyThatManyBytes : Prop :=
  ∀ (s : State) (n : Nat), s.awaitingReset = false →
    (∃ es, AsmLine.edges (.fill n) = .ok es ∧ es.length = n ∧ (outputsOf es s).length = n ∧
      ∀ i, i < n → (outputsOf es s)[i]? = (finalRegisters (es.take (i + 1)) s).map Registers.out) ∧
    (∃ es, AsmLine.edges (.idle n) = .ok es ∧ es.length = n ∧ outputsOf es s = [])

/-- R159: an event at one block leaves every other block of the platform as it was, and the number of blocks too. That one event
reaches one block at a time, and that a power cycle is an event, is the model's choice (logs 6, 7). -/
def Obligations.BlocksShareNothing : Prop :=
  ∀ (p q : Platform) (j k : Nat), j ≠ k →
    (∀ drives, p.apply (.edge k drives) = .next q → q.units[j]? = p.units[j]? ∧ q.nInst = p.nInst) ∧
    (p.apply (.powerCycle k) = .next q → q.units[j]? = p.units[j]? ∧ q.nInst = p.nInst) ∧
    (∀ u v : PlatformEvent, (∃ d, u = .edge j d ∨ u = .powerCycle j) → (∃ d, v = .edge k d ∨ v = .powerCycle k) →
      ∀ a b a' b' : Platform, p.apply u = .next a → a.apply v = .next b → p.apply v = .next a' → a'.apply u = .next b' → b = b')

/-- R60, R151, U5: a platform refuses two hosts driving one block at once, and nothing else at a block it contains. Two clauses are
the model's own choice: where no host drives anything the block takes the edge its own list holds (log 7), and a power cycle
(R161, R182, U3) is a platform event that makes the registers free (log 6). -/
def Obligations.OnlyTwoDriversAreRefused : Prop :=
  ∀ (p : Platform) (k : Nat) (drives : List Edge), k < p.nInst →
    (2 ≤ drives.length → p.apply (.edge k drives) = .refused .twoDrivers) ∧
    ∃ u q, p.units[k]? = some u ∧ p.apply (.powerCycle k) = .next q ∧ q.units[k]? = some u.powerCycle ∧
      (drives.length ≤ 1 → ∃ q t, p.apply (.edge k drives) = .next q ∧
        step (u.present drives) = .next t ∧ q.units[k]? = some t)

/-- R11 and R159: every event keeps the platform's blocks, at least one of them and each at a site of its own; so it is with
`n` blocks right after each one's reset. The sites are the model's own (log 3), as are power cycles as events (log 6). -/
def Obligations.PlatformKeepsItsBlocks : Prop :=
  (∀ (p q : Platform) (ev : PlatformEvent), p.WellFormed → p.apply ev = .next q →
    q.WellFormed ∧ q.units.map State.site = p.units.map State.site) ∧
  ∀ n, 1 ≤ n → (Platform.atReset n).WellFormed ∧ (Platform.atReset n).nInst = n ∧
    ∀ u ∈ (Platform.atReset n).units, u.regs = Registers.reset

/-! ## The invariant -/

/-- Every edge keeps the invariant. Wherever no reset is outstanding since power-up it is: the freshness of OUT, the seed-0
generator before a construction, WEYL and STATE multiples of SEED. It holds the host's duty of R188 for the edges the host has
listed; that an unlisted edge is stable is the model's own choice (log 2). -/
def Obligations.StepKeepsTheInvariant : Prop :=
  ∀ s t : State, Inv s → step s = .next t → Inv t

/-- The invariant holds right after reset. -/
def Obligations.InvariantHoldsAtReset : Prop := Inv State.reset
end

