-- ==== Sys2Proof/Laws/Arith.lean ====
section
/-! SUPPORT. The arithmetic primitives as the exact formulas of spec/00_scope.md R14. -/

namespace Sys2Proof.Machine

theorem add8_toNat (a b : Byte) : (add8 a b).toNat = (a.toNat + b.toNat) % 256 := BitVec.toNat_add a b

theorem mul8_toNat (a b : Byte) : (mul8 a b).toNat = (a.toNat * b.toNat) % 256 := BitVec.toNat_mul a b

theorem shr8_toNat (v : Byte) (k : Nat) : (shr8 v k).toNat = v.toNat / 2 ^ k := by
  simp [shr8, Nat.shiftRight_eq_div_pow]

theorem shl8_toNat (v : Byte) (k : Nat) : (shl8 v k).toNat = (v.toNat * 2 ^ k) % 256 := by
  simp [shl8, Nat.shiftLeft_eq]

theorem or8_toNat (a b : Byte) : (or8 a b).toNat = a.toNat ||| b.toNat := by
  simp [or8]

theorem swap4_toNat (v : Byte) : (swap4 v).toNat = v.toNat / 16 ||| (v.toNat * 16) % 256 := by
  simp [swap4, or8_toNat, shr8_toNat, shl8_toNat]

end Sys2Proof.Machine
end

