-- ==== Sys2Proof/Laws/Decode.lean ====
section
/-! SUPPORT. The fields of a command word, and what an edge selects. -/

namespace Sys2Proof

@[simp] theorem opField_portWord (c : Opcode) (d : Byte) : opField (portWord c d) = c := by
  exact BitVec.extractLsb'_append_eq_left

@[simp] theorem immField_portWord (c : Opcode) (d : Byte) : immField (portWord c d) = d := by
  exact BitVec.extractLsb'_append_eq_right

/-- The two fields are the whole word. -/
theorem portWord_fields (w : CommandWord) : portWord (opField w) (immField w) = w := by
  apply BitVec.eq_of_getLsbD_eq
  intro k hk
  simp only [portWord, opField, immField, BitVec.getLsbD_append, BitVec.getLsbD_extractLsb']
  split
  · simp [*]
  · have : k - 8 < 2 := by omega
    simp [this, show 8 + (k - 8) = k by omega]

namespace Machine

/-- With the reset pin high an edge is a reset, whatever the command on the port (R153). -/
theorem Input.action_of_rst {i : Input} (h : i.rst = true) : i.action = .reset := by simp [Input.action, h]

/-- With the reset pin low an edge is the command on the port (R41). -/
theorem Input.action_of_not_rst {i : Input} (h : i.rst = false) :
    i.action = .command (decode (portWord i.cmd i.din)) := by simp [Input.action, h]

/-- An edge that carries a word executes what the word decodes to. -/
@[simp] theorem wordEdge_action (w : CommandWord) : (wordEdge w).action = .command (decode w) := by
  simp [wordEdge, Edge.action, Input.action, portWord_fields]

end Machine

end Sys2Proof
end

