-- ==== Sys2Proof/Laws/State.lean ====
section
/-! SUPPORT. The small lemmas of the state: one per field per update, so that no later proof unfolds a record update. -/

namespace Sys2Proof.Machine

section
variable (s : State) (r : Registers) (es : List Edge) (e : Edge) (v : Byte)

@[simp] theorem State.withRegs_regs : (s.withRegs r).regs = r := rfl
@[simp] theorem State.withRegs_awaitingReset : (s.withRegs r).awaitingReset = s.awaitingReset := rfl
@[simp] theorem State.withRegs_inputs : (s.withRegs r).inputs = s.inputs := rfl
@[simp] theorem State.withRegs_edges : (s.withRegs r).edges = s.edges := rfl
@[simp] theorem State.withRegs_site : (s.withRegs r).site = s.site := rfl

@[simp] theorem State.resetAction_regs : s.resetAction.regs = Registers.reset := rfl
@[simp] theorem State.resetAction_awaitingReset : s.resetAction.awaitingReset = false := rfl
@[simp] theorem State.resetAction_inputs : s.resetAction.inputs = s.inputs := rfl
@[simp] theorem State.resetAction_edges : s.resetAction.edges = s.edges := rfl
@[simp] theorem State.resetAction_site : s.resetAction.site = s.site := rfl

@[simp] theorem State.endEdge_regs : s.endEdge.regs = s.regs := rfl
@[simp] theorem State.endEdge_awaitingReset : s.endEdge.awaitingReset = s.awaitingReset := rfl
@[simp] theorem State.endEdge_inputs : s.endEdge.inputs = s.inputs.tail := rfl
@[simp] theorem State.endEdge_edges : s.endEdge.edges = s.edges + 1 := rfl
@[simp] theorem State.endEdge_site : s.endEdge.site = s.site := rfl

@[simp] theorem State.present_regs : (s.present es).regs = s.regs := rfl
@[simp] theorem State.present_awaitingReset : (s.present es).awaitingReset = s.awaitingReset := rfl
@[simp] theorem State.present_inputs : (s.present es).inputs = es ++ s.inputs := rfl
@[simp] theorem State.present_edges : (s.present es).edges = s.edges := rfl
@[simp] theorem State.present_site : (s.present es).site = s.site := rfl

@[simp] theorem State.powerCycle_regs :
    s.powerCycle.regs = Config.anyRegisters .powerUp s.site s.edges := rfl
@[simp] theorem State.powerCycle_awaitingReset : s.powerCycle.awaitingReset = true := rfl
@[simp] theorem State.powerCycle_inputs : s.powerCycle.inputs = s.inputs := rfl
@[simp] theorem State.powerCycle_edges : s.powerCycle.edges = s.edges + 1 := rfl
@[simp] theorem State.powerCycle_site : s.powerCycle.site = s.site := rfl

/-- Where the host has listed an edge, that edge is presented. -/
@[simp] theorem State.presented_present_cons : (s.present (e :: es)).presented = e := rfl

/-- Presenting in two portions is presenting both at once. -/
theorem State.present_append (fs : List Edge) : (s.present fs).present es = s.present (es ++ fs) := by
  simp [State.present]

@[simp] theorem Registers.construct_seed : (r.construct v).seed = v := rfl
@[simp] theorem Registers.construct_weyl : (r.construct v).weyl = 0x00#8 := rfl
@[simp] theorem Registers.construct_state : (r.construct v).state = 0x00#8 := rfl
@[simp] theorem Registers.construct_out : (r.construct v).out = r.out := rfl
@[simp] theorem Registers.construct_dvalid : (r.construct v).dvalid = false := rfl
@[simp] theorem Registers.construct_seeded : (r.construct v).seeded = true := rfl

@[simp] theorem Registers.generate_seed : r.generate.seed = r.seed := rfl
@[simp] theorem Registers.generate_weyl : r.generate.weyl = add8 r.weyl r.seed := rfl
@[simp] theorem Registers.generate_state :
    r.generate.state = add8 (mul8 r.state r.state) (add8 r.weyl r.seed) := rfl
@[simp] theorem Registers.generate_out : r.generate.out = swap4 r.generate.state := rfl
@[simp] theorem Registers.generate_dvalid : r.generate.dvalid = true := rfl
@[simp] theorem Registers.generate_seeded : r.generate.seeded = r.seeded := rfl

@[simp] theorem Registers.idle_seed : r.idle.seed = r.seed := rfl
@[simp] theorem Registers.idle_weyl : r.idle.weyl = r.weyl := rfl
@[simp] theorem Registers.idle_state : r.idle.state = r.state := rfl
@[simp] theorem Registers.idle_out : r.idle.out = r.out := rfl
@[simp] theorem Registers.idle_dvalid : r.idle.dvalid = false := rfl
@[simp] theorem Registers.idle_seeded : r.idle.seeded = r.seeded := rfl

end

end Sys2Proof.Machine
end

