-- ==== Sys2Proof/Laws/Step.lean ====
section
/-! SUPPORT. Said once: what a command and what an edge can do. -/

namespace Sys2Proof.Machine

/-- The registers after a command, given the draw. -/
def commandRegs (i : Instr) (draw : Byte) (r : Registers) : Registers :=
  match i with
  | .nop => r.idle
  | .seed v => r.construct v
  | .seedt => r.construct draw
  | .next => r.generate

/-- Every command answers a next state, and writes registers only. -/
theorem exec_eq (i : Instr) (s : State) : exec i s = .next (s.withRegs (commandRegs i s.draw8 s.regs)) := by
  cases i <;> rfl

/-- Where no reset is outstanding, what an edge performs is what its inputs select. -/
@[simp] theorem State.action_of_reset_seen {s : State} (h : s.awaitingReset = false) : s.action = s.presented.action := by
  unfold State.action
  cases s.presented.action <;> simp [h]

/-- Until the reset that is outstanding, any other edge leaves every register unspecified. -/
theorem State.action_of_awaiting {s : State} (h : s.awaitingReset = true) (hr : s.presented.action ≠ .reset) :
    s.action = .unsettle .powerUp := by
  unfold State.action
  cases hp : s.presented.action with
  | reset => exact absurd hp hr
  | unsettle why => simp [h]
  | command i => simp [h]

/-- A reset is performed in every state. -/
theorem State.action_reset {s : State} (h : s.presented.action = .reset) : s.action = .reset := by simp [State.action, h]

/-- Only an edge whose inputs select a reset performs one. -/
theorem State.action_eq_reset_iff (s : State) : s.action = .reset ↔ s.presented.action = .reset := by
  unfold State.action
  cases s.presented.action <;> cases s.awaitingReset <;> simp

/-- The registers after an edge. -/
def edgeRegs (s : State) : Registers :=
  match s.action with
  | .unsettle why => Config.anyRegisters why s.site s.edges
  | .reset => Registers.reset
  | .command i => commandRegs i s.draw8 s.regs

/-- Whether a reset is still outstanding after an edge. -/
def edgeAwaiting (s : State) : Bool := s.awaitingReset && decide (s.presented.action ≠ .reset)

/-- The state after an edge: new registers, the host's list moved on, the index advanced. -/
def nextState (s : State) : State :=
  { regs := edgeRegs s, awaitingReset := edgeAwaiting s, inputs := s.inputs.tail, edges := s.edges + 1, site := s.site }

@[simp] theorem nextState_regs (s : State) : (nextState s).regs = edgeRegs s := rfl
@[simp] theorem nextState_awaitingReset (s : State) : (nextState s).awaitingReset = edgeAwaiting s := rfl
@[simp] theorem nextState_inputs (s : State) : (nextState s).inputs = s.inputs.tail := rfl
@[simp] theorem nextState_edges (s : State) : (nextState s).edges = s.edges + 1 := rfl
@[simp] theorem nextState_site (s : State) : (nextState s).site = s.site := rfl

/-- No edge makes a reset outstanding. -/
@[simp] theorem edgeAwaiting_of_reset_seen {s : State} (h : s.awaitingReset = false) : edgeAwaiting s = false := by
  simp [edgeAwaiting, h]

/-- Every edge answers a next state. -/
theorem step_eq (s : State) : step s = .next (nextState s) := by
  have hw : edgeAwaiting s = if s.action = .reset then false else s.awaitingReset := by
    by_cases h : s.presented.action = .reset <;> simp [edgeAwaiting, State.action_eq_reset_iff, h]
  unfold step edgeEffect nextState edgeRegs
  rw [hw]
  cases s.action <;> simp [exec_eq, State.unsettle, State.resetAction, State.withRegs, State.endEdge]

/-- The inversion of `step`. -/
theorem step_next {s t : State} (h : step s = .next t) : t = nextState s := by
  rw [step_eq] at h
  exact (Host.Outcome.next.inj h).symm

/-- `Host.Core.run` of this machine, one edge at a time. -/
theorem run_succ (n : Nat) (s : State) :
    Host.Core.run Sys2Proof.core (n + 1) s = Host.Core.run Sys2Proof.core n (nextState s) := by
  have h : Sys2Proof.core.step s = .next (nextState s) := step_eq s
  simp only [Host.Core.run, h]

end Sys2Proof.Machine
end

