-- ==== Sys2Proof/Laws/Observe.lean ====
section
/-! SUPPORT. Runs over listed edges, one edge at a time: what the first edge leaves, and what it adds to the observation. -/

namespace Sys2Proof.Machine

/-- The state after one edge that the host presents on top of whatever it had listed. -/
def State.afterEdge (s : State) (e : Edge) : State := nextState (s.present [e])

@[simp] theorem State.afterEdge_regs (s : State) (e : Edge) : (s.afterEdge e).regs = edgeRegs (s.present [e]) := rfl
@[simp] theorem State.afterEdge_awaitingReset (s : State) (e : Edge) :
    (s.afterEdge e).awaitingReset = (s.awaitingReset && decide (e.action ≠ .reset)) := rfl
@[simp] theorem State.afterEdge_inputs (s : State) (e : Edge) : (s.afterEdge e).inputs = s.inputs := rfl
@[simp] theorem State.afterEdge_edges (s : State) (e : Edge) : (s.afterEdge e).edges = s.edges + 1 := rfl
@[simp] theorem State.afterEdge_site (s : State) (e : Edge) : (s.afterEdge e).site = s.site := rfl

/-- What an edge does to the block does not depend on the edges listed after it. -/
theorem nextState_present_cons (s : State) (e : Edge) (es : List Edge) :
    nextState (s.present (e :: es)) = (s.afterEdge e).present es := rfl

/-- A step on the first listed edge leaves the others listed. -/
theorem step_present_cons (s : State) (e : Edge) (es : List Edge) :
    step (s.present (e :: es)) = .next ((s.afterEdge e).present es) := step_eq _

theorem runEdges_nil (s : State) : runEdges [] s = .next s := rfl

/-- A run takes its edges one after the other. -/
theorem runEdges_cons (e : Edge) (es : List Edge) (s : State) : runEdges (e :: es) s = runEdges es (s.afterEdge e) := by
  show Host.Core.run core (es.length + 1) _ = _
  rw [run_succ, nextState_present_cons]
  rfl

theorem outputsOf_nil (s : State) : outputsOf [] s = [] := rfl

/-- An edge adds OUT to the observation exactly where it leaves DVALID = 1. -/
theorem outputsOf_cons (e : Edge) (es : List Edge) (s : State) :
    outputsOf (e :: es) s
      = (if (s.afterEdge e).regs.dvalid then [(s.afterEdge e).regs.out] else []) ++ outputsOf es (s.afterEdge e) := by
  show observe (es.length + 1) _ = _
  rw [observe, step_present_cons]
  rfl

/-- The other form of the observation adds OUT exactly where the edge executes NEXT. -/
theorem nextOutputs_cons (e : Edge) (es : List Edge) (s : State) :
    nextOutputs (es.length + 1) (s.present (e :: es))
      = (if (s.present [e]).action = .command .next then [(s.afterEdge e).regs.out] else [])
        ++ nextOutputs es.length ((s.afterEdge e).present es) := by
  rw [nextOutputs, step_present_cons]
  rfl

/-- The registers after a presented command edge, where no reset is outstanding. -/
theorem edgeRegs_command {s : State} {e : Edge} {i : Instr} (hs : s.awaitingReset = false) (h : e.action = .command i) :
    edgeRegs (s.present [e]) = commandRegs i (s.present [e]).draw8 s.regs := by
  have ha : (s.present [e]).action = .command i := (State.action_of_reset_seen (s := s.present [e]) hs).trans h
  simp [edgeRegs, ha]

/-- The registers after a presented reset edge, in every state. -/
theorem edgeRegs_reset {s : State} {e : Edge} (h : e.action = .reset) : edgeRegs (s.present [e]) = Registers.reset := by
  have ha : (s.present [e]).action = .reset := State.action_reset h
  simp [edgeRegs, ha]

/-- The registers after an edge that is no reset, while one is outstanding. -/
theorem edgeRegs_awaiting {s : State} {e : Edge} (hs : s.awaitingReset = true) (h : e.action ≠ .reset) :
    edgeRegs (s.present [e]) = Config.anyRegisters .powerUp s.site s.edges := by
  have ha : (s.present [e]).action = .unsettle .powerUp := State.action_of_awaiting hs h
  simp [edgeRegs, ha]

end Sys2Proof.Machine
end

