-- ==== Sys2Proof/Laws/PerInstr.lean ====
section
/-! SUPPORT. One lemma per constructor: the canonical word of each command lies in its row of the opcode table, and no other. -/

namespace Sys2Proof.Laws.TableRow

/-- The immediate bits an assembler drives: the seed byte for SEED, zero where `imm8` is ignored (spec/30_encoding.md R74). -/
def canonicalImm : Instr → Byte
  | .nop => 0x00#8
  | .seed v => v
  | .seedt => 0x00#8
  | .next => 0x00#8

/-- The word the assembler emits for `i` has `i`'s bits under the table's mask, and its canonical immediate (R74, R75, R78). -/
def Statement (i : Instr) : Prop :=
  encode i &&& matchMask = matchBits i ∧ immField (encode i) = canonicalImm i

theorem nop : Statement .nop := by unfold Statement; decide

theorem seed (v : Byte) : Statement (.seed v) :=
  (by decide : ∀ v : Byte, encode (.seed v) &&& matchMask = 0x100#10 ∧ immField (encode (.seed v)) = v) v

theorem seedt : Statement .seedt := by unfold Statement; decide

theorem next : Statement .next := by unfold Statement; decide

end Sys2Proof.Laws.TableRow
end

