-- ==== Sys2Proof/Laws/Platform.lean ====
section
/-! SUPPORT. What a platform event can do, said once. -/

namespace Sys2Proof.Machine

/-- The block an event is at. -/
def PlatformEvent.unit : PlatformEvent → Nat
  | .edge k _ => k
  | .powerCycle k => k

/-- One block's part of an edge: a step on what the one driver presents, or on what was listed. -/
theorem unitEvent_next {drives : List Edge} {u u' : State} (h : unitEvent drives u = .next u') :
    drives.length ≤ 1 ∧ step (u.present drives) = .next u' := by
  match drives, h with
  | [], h => exact ⟨by simp, h⟩
  | [_], h => exact ⟨by simp, h⟩

/-- An event that answers replaces the one block it is at, by one at the same site. -/
theorem Platform.apply_next {p q : Platform} {ev : PlatformEvent} (h : p.apply ev = .next q) :
    ∃ u u', p.units[ev.unit]? = some u ∧ u'.site = u.site ∧ q = p.setUnit ev.unit u' := by
  cases ev with
  | edge k drives =>
    simp only [Platform.apply] at h
    split at h
    · cases h
    · rename_i u hu
      split at h
      · rename_i u' hu'
        cases h
        refine ⟨u, u', hu, ?_, rfl⟩
        rw [step_next (unitEvent_next hu').2]
        rfl
      · cases h
      · cases h
  | powerCycle k =>
    simp only [Platform.apply] at h
    split at h
    · cases h
    · rename_i u hu
      cases h
      exact ⟨u, u.powerCycle, hu, rfl, rfl⟩

end Sys2Proof.Machine
end

