-- ==== Sys2Proof/Tests/Slice0.lean ====
section
/-! SUPPORT. Tests: words written out from the spec's encodings, the spec's own vectors (spec/95_test_vectors.md), and for every
statement with hypotheses a state and operands that meet them. -/

namespace Sys2Proof.Tests

open Sys2Proof.Machine

/-! ## Well-formedness: an ill-formed term for each check -/

theorem test_isCommandWord_refuses_eleven_bits : isCommandWord 0x400 = false := by decide
theorem test_isCommandWord_takes_the_largest : isCommandWord 0x3FF = true := by decide
theorem test_isSeedByte_refuses_256 : isSeedByte 256 = false := by decide
theorem test_isSeedByte_takes_255 : isSeedByte 255 = true := by decide

/-! ## Decoding: words written out from the patterns of spec/30_encoding.md R75 -/

theorem test_decode_nop_ignores_imm : decode 0b0011111111#10 = .nop := by decide
theorem test_decode_seed_5A : decode 0b0101011010#10 = .seed 0x5A#8 := by decide
theorem test_decode_seedt_ignores_imm : decode 0b1011000011#10 = .seedt := by decide
theorem test_decode_next_ignores_imm : decode 0b1111111111#10 = .next := by decide
theorem test_encode_seed_5A : encode (.seed 0x5A#8) = 0x15A#10 := by decide
theorem test_decodeTableWord_seed : decodeTableWord 16 0x15A = some (.seed 0x5A#8) := by decide
theorem test_decodeTableWord_rejects : decodeTableWord 16 0x400 = none := by decide

/-! ## One step from a small state -/

/-- A state with these registers and nothing listed. -/
def atRegs (seed weyl state out : Nat) (dvalid seeded : Bool) : State :=
  { State.reset with regs :=
    { seed := BitVec.ofNat 8 seed, weyl := BitVec.ofNat 8 weyl, state := BitVec.ofNat 8 state, out := BitVec.ofNat 8 out,
      dvalid := dvalid, seeded := seeded } }

/-- The registers after one step. -/
def regsAfter (s : State) : Option Registers :=
  match step s with
  | .next t => some t.regs
  | .fault _ => none
  | .refused _ => none

/-- Vector TI1. -/
theorem test_nop_clears_dvalid :
    regsAfter ((atRegs 3 3 3 0x30 true true).withFetchWord 16 0x000) = some (atRegs 3 3 3 0x30 false true).regs := by decide

/-- Vector TI2: `imm8` ignored. -/
theorem test_nop_ignores_imm :
    regsAfter ((atRegs 3 3 3 0x30 false true).withFetchWord 16 0x0FF) = some (atRegs 3 3 3 0x30 false true).regs := by decide

/-- Vector TC4. -/
theorem test_seed_keeps_out :
    regsAfter ((atRegs 3 0x21 0xB2 0x2B true true).withFetchWord 16 0x1FF) = some (atRegs 0xFF 0 0 0x2B false true).regs := by
  decide

/-- Vector TC3: the same seed restarts the sequence. -/
theorem test_seed_restarts :
    regsAfter ((atRegs 3 0x21 0xB2 0x2B true true).withFetchWord 16 0x103) = some (atRegs 3 0 0 0x2B false true).regs := by
  decide

/-- Vector TC5: the low 8 bits of 123456789. -/
theorem test_seedt_truncates :
    regsAfter (State.reset.present [seedtEdge 0x075BCD15]) = some (atRegs 0x15 0 0 0 false true).regs := by decide

/-- Vector TC7: 0x3B9AC9FF on the time port, `imm8` 0xC3 ignored. -/
theorem test_seedt_ignores_imm :
    regsAfter (((atRegs 0x15 0x3F 0x88 0x88 true true).present [seedtEdge 0x3B9AC9FF]).withFetchWord 16 0x2C3)
      = some (atRegs 0xFF 0 0 0x88 false true).regs := by decide

/-- Vector TN8: the sum wraps. -/
theorem test_next_wraps :
    regsAfter ((atRegs 0x5A 0xA5 0x0F 0 false true).withFetchWord 16 0x300) = some (atRegs 0x5A 0xFF 0xE0 0x0E true true).regs := by
  decide

/-- Vectors TN9 and TN11: the source's rotation example, with `imm8` ignored. -/
theorem test_next_rotation_example :
    regsAfter ((atRegs 3 0x1E 0x57 0x75 true true).withFetchWord 16 0x3FF) = some (atRegs 3 0x21 0xB2 0x2B true true).regs := by
  decide

/-- Vector TR2: reset with cmd = NEXT on the port. -/
theorem test_reset_discards_the_command :
    regsAfter ((atRegs 0xB2 0xB2 0xB2 0x2B true true).present
      [.clean { rst := true, cmd := 0b11#2, din := 0xFF#8, tns := none }]) = some Registers.reset := by decide

/-- Vector TR4: NEXT before construction. -/
theorem test_next_before_construction :
    regsAfter (State.reset.withFetchWord 16 0x300) = some (atRegs 0 0 0 0 true false).regs := by decide

/-- R182: SEED at rst = 0 right after a power cycle leaves the registers as free as they were. -/
theorem test_seed_before_reset_defines_nothing :
    regsAfter (State.reset.powerCycle.withFetchWord 16 0x15A) = some (Config.anyRegisters .powerUp 0 1) := rfl

/-! ## The assembler's notation (R76, R77) -/

theorem test_readLine_case_hex_comment : readLine "seed 0x5A ; go".toList = .ok (some (.seed 0x5A)) := by decide
theorem test_readLine_tns : readLine "SEEDT ; tns=12".toList = .ok (some (.seedt (some 12))) := by decide
theorem test_readLine_new_binary : readLine "NEW 0b101".toList = .ok (some (.seed 5)) := by decide
theorem test_readLine_tns_hex : readLine "SEEDT ;tns=0x1F".toList = .ok (some (.seedt (some 31))) := by decide
theorem test_readLine_no_other : readLine "JUMP 3".toList = .error .notALine := by decide
theorem test_assemble_fill : (assemble [.reset, .fill 2]).map List.length = .ok 3 := by decide

/-! ## Witnesses: a state and operands that meet the hypotheses of a statement -/

/-- IgnoredImmediateHasNoEffect. -/
theorem test_witness_not_seed_opcode : (0b00#2 : Opcode) ≠ 0b01#2 := by decide

/-- OnlyTenBitNumbersAreCommandWords and PlacedWordRunsNext: both sides of the boundary. -/
theorem test_witness_word_boundary : State.reset.awaitingReset = false ∧ 1024 ≤ 1024 ∧ 1023 < 1024 := by decide

/-- AssemblerEmitsTheWords: both sides of the boundary. -/
theorem test_witness_seed_boundary : 255 ≤ 255 ∧ 255 < 256 := by decide

/-- StepRunsTheDecodedCommand and StepRefinesTheRules. -/
theorem test_witness_clean_edge :
    (State.reset.present [commandEdge .next]).awaitingReset = false ∧
      ∃ i : Input, (State.reset.present [commandEdge .next]).presented = .clean i ∧ i.rst = false :=
  ⟨rfl, _, rfl, rfl⟩

/-- StepRefinesTheRules, by its other premise: a reset edge at a block that awaits one. -/
theorem test_witness_reset_edge_when_awaited :
    (State.reset.powerCycle.present [resetEdge]).awaitingReset = true ∧
      ∃ i : Input, (State.reset.powerCycle.present [resetEdge]).presented = .clean i ∧ i.rst = true :=
  ⟨rfl, _, rfl, rfl⟩

/-- RegistersUnspecifiedUntilTheFirstReset: after a power cycle, a SEED and a NEXT edge and then a reset edge. -/
theorem test_witness_awaiting_reset :
    State.reset.powerCycle.awaitingReset = true ∧
      (∀ f ∈ [commandEdge (.seed 0x03#8), commandEdge .next], f.action ≠ .reset) ∧
      [commandEdge (.seed 0x03#8), commandEdge .next] ≠ [] ∧ resetEdge.action = .reset := by
  refine ⟨rfl, ?_⟩
  decide

/-- RunIsTheLeftFoldOfTheRules. -/
theorem test_witness_named_inputs :
    State.reset.awaitingReset = false ∧
      ∀ i ∈ [({ rst := false, cmd := 0b10#2, din := 0x00#8, tns := some 7 } : Input)], i.tns ≠ none := by decide

/-- EveryRunGoesOn's second clause. -/
theorem test_witness_run : ∃ t, Host.Core.run core 1 (State.reset.present [commandEdge .next]) = .next t := ⟨_, rfl⟩

/-- MarginalEdgeLeavesAnyRegisters. -/
theorem test_witness_marginal : (State.reset.present [.marginal]).presented = .marginal ∧
    (State.reset.powerCycle.present [.marginal]).presented = .marginal := ⟨rfl, rfl⟩

/-- HeldResetIsOneReset, UnseededBlockEmitsZeros, ResetDefinesRegistersAfterPowerUp, ResetDiffersFromSeedZeroInSeededAndOut,
IdleHoldsTheGenerator and OutRevealsStateAndTopBitIsLost: a reset state and an edge of each action. -/
theorem test_witness_edge_actions :
    State.reset.awaitingReset = false ∧ [resetEdge] ≠ [] ∧ resetEdge.action = .reset ∧ (commandEdge .next).action = .command .next ∧
      (commandEdge (.seed 0x00#8)).action = .command (.seed 0x00#8) ∧ (commandEdge .nop).action = .command .nop := by decide

/-- SeedtEqualsSeedOfTheDraw and DrawIsTheLowByteOfTheTimePort's first clause, at the largest named count of vector TC7. -/
theorem test_witness_named_draw :
    (seedtEdge 0x3B9AC9FF).action = .command .seedt ∧ (State.reset.present [seedtEdge 0x3B9AC9FF]).draw8 = 0xFF#8 ∧
      (State.reset.present [seedtEdge 0x3B9AC9FF]).presented.namedTns = some 0x3B9AC9FF ∧
      (commandEdge (.seed 0xFF#8)).action = .command (.seed 0xFF#8) := by decide

/-- DrawIsTheLowByteOfTheTimePort's second clause. -/
theorem test_witness_free_draw : (State.reset.present [commandEdge .seedt]).presented.namedTns = none := by decide

/-- WeylClosedForm, WeylPeriodIsExact and StateFollowsTheRecurrence, with SEED and with SEEDT. -/
theorem test_witness_constructs :
    Constructs State.reset (commandEdge (.seed 0x03#8)) 0x03#8 ∧ Constructs State.reset (seedtEdge 0x103) 0x03#8 :=
  ⟨⟨rfl, Or.inl (by decide)⟩, ⟨rfl, Or.inr (by decide)⟩⟩

/-- The same statements' list of edges. -/
theorem test_witness_unbroken : Unbroken [commandEdge .next, commandEdge .nop] ∧
    countNext [commandEdge .next, commandEdge .nop] ≠ 0 := by
  unfold Unbroken; decide

/-- WeylPeriodIsExact's sizes and MiddleSquareLaws: an odd, an even nonzero and a zero byte. -/
theorem test_witness_bytes :
    (0xFF#8 : Byte).toNat % 2 = 1 ∧ (0x80#8 : Byte).toNat % 2 = 0 ∧ (0x80#8 : Byte) ≠ 0x00#8 ∧
      (0xF0#8 : Byte).toNat % 16 = 0 := by decide

/-- SameSeedSameOutputs (with test_witness_constructs) and OutputIgnoresFlagsAndNops (from State.reset): edges that draw nothing
unnamed. -/
theorem test_witness_draw_named : ∀ e ∈ [seedtEdge 5, commandEdge .next, resetEdge], DrawNamed e := by
  have h : ∀ e ∈ [seedtEdge 5, commandEdge .next, resetEdge],
      e ≠ .marginal ∧ (e.action = .command .seedt → e.namedTns.isSome = true) := by decide
  exact fun e he => ⟨(h e he).1, fun ha => Option.isSome_iff_exists.mp ((h e he).2 ha)⟩

/-- OutputIgnoresFlagsAndNops' first clause: two states that differ in the flags and OUT only. -/
theorem test_witness_same_generator :
    (atRegs 3 6 0x0F 0 false false).regs.seed = (atRegs 3 6 0x0F 9 true true).regs.seed ∧
      (atRegs 3 6 0x0F 0 false false).regs.weyl = (atRegs 3 6 0x0F 9 true true).regs.weyl ∧
      (atRegs 3 6 0x0F 0 false false).regs.state = (atRegs 3 6 0x0F 9 true true).regs.state := by decide

/-- RotationExampleOfTheSource, both clauses. -/
theorem test_witness_rotation_state :
    State.reset.awaitingReset = false ∧ (atRegs 3 0x1E 0x57 0 false true).regs.seed = 0x03#8 ∧ (atRegs 3 0x1E 0x57 0 false true).regs.weyl = 0x1E#8 ∧
      (atRegs 3 0x1E 0x57 0 false true).regs.state = 0x57#8 := by decide

/-- SequencePeriodIsExact, ShortPeriodSeeds and CorrectedNonDegeneracy: k, and a q below each period. -/
theorem test_witness_periods :
    State.reset.awaitingReset = false ∧ 4 < 5 ∧ 0 < 1 ∧ 1 < weylPeriod 0x80#8 ∧ 3 < weylPeriod 0x40#8 ∧ 255 < weylPeriod 0x01#8 ∧
      (0x40#8 : Byte) ≠ 0x00#8 ∧ (0x40#8 : Byte) ≠ 0x80#8 := by decide

/-- DvalidMarksTheEdgeAfterNext, SeededTellsOfAConstruction, RegistersChangeOnlyByTheirWriters and TwoObservationsAgree. -/
theorem test_witness_stable_edges :
    State.reset.awaitingReset = false ∧
      StableEdges [commandEdge .next, commandEdge (.seed 0x03#8), commandEdge .nop, resetEdge] := by
  unfold StableEdges; decide

/-- RegistersChangeOnlyByTheirWriters: an edge at which SEED, WEYL, STATE and SEEDED all change, and one at which OUT does. -/
theorem test_witness_changes :
    regsAfter ((atRegs 3 6 0x0F 0xF0 true false).present [commandEdge (.seed 0x05#8)])
        = some (atRegs 5 0 0 0xF0 false true).regs ∧
      regsAfter ((atRegs 3 6 0x0F 0xF0 true false).present [commandEdge .next])
        = some (atRegs 3 9 0xEA 0xAE true false).regs := by decide

/-- FillYieldsExactlyThatManyBytes (an index below the length), EveryDrawIsLegal, ConstructionRestartsTheSequence and
IdempotencyOfCommands: a block that has been reset. -/
theorem test_witness_fill_index : State.reset.awaitingReset = false ∧ 0 < 1 := by decide

/-- BlocksShareNothing and PlatformKeepsItsBlocks: two blocks, an edge at one of them, a power cycle at one, and an event at
each in both orders. -/
theorem test_witness_two_blocks :
    (0 : Nat) ≠ 1 ∧ (Platform.atReset 2).WellFormed ∧
      (∃ q, (Platform.atReset 2).apply (.edge 1 [commandEdge .next]) = .next q) ∧
      (∃ q, (Platform.atReset 2).apply (.powerCycle 1) = .next q) ∧
      (∃ a b a' b', (Platform.atReset 2).apply (.edge 0 [commandEdge .next]) = .next a ∧
        a.apply (.powerCycle 1) = .next b ∧ (Platform.atReset 2).apply (.powerCycle 1) = .next a' ∧
        a'.apply (.edge 0 [commandEdge .next]) = .next b') :=
  ⟨by decide, ⟨by decide, by decide⟩, ⟨_, rfl⟩, ⟨_, rfl⟩, ⟨_, _, _, _, rfl, rfl, rfl, rfl⟩⟩

/-- OnlyTwoDriversAreRefused: a block there is, with two drives and with one. -/
theorem test_witness_drivers :
    0 < (Platform.atReset 1).nInst ∧ 2 ≤ [commandEdge .next, commandEdge .nop].length ∧ [commandEdge .next].length ≤ 1 := by
  decide

/-- StepKeepsTheInvariant: a seeded state with a fresh output and a listed edge, and its step. -/
theorem test_witness_invariant :
    Inv ((atRegs 3 6 0x0F 0xF0 true true).present [commandEdge .next]) ∧
      ((atRegs 3 6 0x0F 0xF0 true true).present [commandEdge .next]).awaitingReset = false ∧
      ∃ t, step ((atRegs 3 6 0x0F 0xF0 true true).present [commandEdge .next]) = .next t :=
  ⟨⟨by unfold StableEdges; decide, fun _ => ⟨by decide, by decide, ⟨2#8, by decide⟩, ⟨5#8, by decide⟩⟩⟩, by decide, ⟨_, rfl⟩⟩

end Sys2Proof.Tests
end

/-! # The parameters and conventions of spec/00_scope.md: the primitives of R14, the draw of R9 to R16, the platform of R11 -/

namespace Sys2Proof.Machine

/-! ## The draw of SEEDT, by what the presented edge names -/

/-- Where the edge names a count, the draw is its low byte (R16, R76). -/
theorem State.draw8_of_named {s : State} {v : Nat} (h : s.presented.namedTns = some v) :
    s.draw8 = BitVec.ofNat 8 v := by
  simp [State.draw8, State.tns, h]

/-- Where the edge names none, the draw is the low byte of the platform's free draw (R10, R16). -/
theorem State.draw8_of_unnamed {s : State} (h : s.presented.namedTns = none) :
    s.draw8 = (Config.timeSrc s.site s.edges).setWidth 8 := by
  simp [State.draw8, State.tns, h]

/-- The time port is at least as wide as the byte SEEDT takes from it (R9). -/
theorem eight_le_timeW : 8 ≤ Config.timeW := Nat.le_add_right 8 Config.timeWAboveByte

/-! ## The sites of a platform's blocks -/

/-- A block replaced by one at the same site leaves the list of sites as it was. -/
theorem Platform.sites_setUnit {p : Platform} {k : Nat} {u u' : State} (hu : p.units[k]? = some u)
    (hsite : u'.site = u.site) : (p.setUnit k u').units.map State.site = p.units.map State.site := by
  obtain ⟨hk, rfl⟩ := List.getElem?_eq_some_iff.mp hu
  have hself : u'.site = (p.units.map State.site)[k]'(by simpa using hk) := by simp [hsite]
  rw [Platform.setUnit, List.map_set, hself, List.set_getElem_self]

/-- An event that answers moves no block to another site. -/
theorem Platform.sites_apply {p q : Platform} {ev : PlatformEvent} (h : p.apply ev = .next q) :
    q.units.map State.site = p.units.map State.site := by
  obtain ⟨u, u', hu, hsite, rfl⟩ := Platform.apply_next h
  exact Platform.sites_setUnit hu hsite

/-- Well-formedness speaks of the list of sites alone. -/
theorem Platform.wellFormed_of_sites_eq {p q : Platform} (hp : p.WellFormed)
    (h : q.units.map State.site = p.units.map State.site) : q.WellFormed := by
  obtain ⟨hcount, hnodup⟩ := hp
  have hn : q.nInst = p.nInst := by simpa [Platform.nInst] using congrArg List.length h
  exact ⟨hn ▸ hcount, h ▸ hnodup⟩

/-! ## The platform right after reset -/

@[simp] theorem Platform.nInst_atReset (n : Nat) : (Platform.atReset n).nInst = n := by
  simp [Platform.nInst, Platform.atReset]

/-- The blocks after reset stand at the sites 0, 1, and so on (log 3). -/
@[simp] theorem Platform.sites_atReset (n : Nat) : (Platform.atReset n).units.map State.site = List.range n := by
  simp [Platform.atReset, Function.comp_def]

/-- Every block after reset holds the reset registers (R37). -/
theorem Platform.regs_of_mem_atReset {n : Nat} {u : State} (hu : u ∈ (Platform.atReset n).units) :
    u.regs = Registers.reset := by
  obtain ⟨k, -, rfl⟩ := List.mem_map.mp hu
  rfl

theorem Platform.wellFormed_atReset {n : Nat} (hn : 1 ≤ n) : (Platform.atReset n).WellFormed :=
  ⟨by simpa using hn, by simpa using List.nodup_range⟩

end Sys2Proof.Machine

namespace Sys2Proof.Proofs

open Sys2Proof.Machine

/-- Settles O50: an event replaces one block by one at the same site, and the sites decide well-formedness. -/
theorem platformKeepsItsBlocks : Obligations.PlatformKeepsItsBlocks := by
  refine ⟨fun p q ev hp h => ?_, fun n hn => ?_⟩
  · have hsites := Platform.sites_apply h
    exact ⟨Platform.wellFormed_of_sites_eq hp hsites, hsites⟩
  · exact ⟨Platform.wellFormed_atReset hn, Platform.nInst_atReset n, fun _ => Platform.regs_of_mem_atReset⟩

/-- Settles O21, by the two cases of the draw. -/
theorem drawIsTheLowByteOfTheTimePort : Obligations.DrawIsTheLowByteOfTheTimePort := by
  refine fun s => ⟨fun v hv => ?_, State.draw8_of_unnamed, eight_le_timeW⟩
  rw [State.draw8_of_named hv, BitVec.toNat_ofNat]

/-- Settles O29, by the laws of the primitives; the nibble swap is R14's formula by definition. -/
theorem primitivesAreExactModulo256 : Obligations.PrimitivesAreExactModulo256 := fun a b k =>
  ⟨add8_toNat a b, mul8_toNat a b, shr8_toNat a k, shl8_toNat a k, or8_toNat a b, rfl⟩

end Sys2Proof.Proofs

/-! # The state and its step, spec/10_state.md -/

namespace Sys2Proof.Machine

/-! ## The nibble swap bit by bit, and the bit the square loses -/

/-- The nibble swap moves every bit by four places, around the byte (R112). -/
theorem swap4_getLsbD (v : Byte) {k : Nat} (hk : k < 8) : (swap4 v).getLsbD k = v.getLsbD ((k + 4) % 8) := by
  have hbit : (swap4 v).getLsbD k = (v.getLsbD (4 + k) || (!decide (k < 4) && v.getLsbD (k - 4))) := by
    simp only [swap4, or8, shr8, shl8, BitVec.getLsbD_or, BitVec.getLsbD_ushiftRight, BitVec.getLsbD_shiftLeft, hk,
      decide_true, Bool.true_and]
  rw [hbit]
  by_cases h4 : k < 4
  · rw [show (k + 4) % 8 = 4 + k by omega]
    simp [h4]
  · rw [show (k + 4) % 8 = k - 4 by omega, BitVec.getLsbD_of_ge v (4 + k) (by omega)]
    simp [h4]

/-- The nibble swap is its own inverse (R112). -/
@[simp] theorem swap4_swap4 (v : Byte) : swap4 (swap4 v) = v := by
  refine BitVec.eq_of_getLsbD_eq fun k hk => ?_
  rw [swap4_getLsbD _ hk, swap4_getLsbD _ (Nat.mod_lt _ (by decide))]
  congr 1
  omega

/-- Flipping the top bit of a byte is adding 128 to it, modulo 256. -/
theorem xor_top_eq_add (v : Byte) : v ^^^ 0x80#8 = v + 0x80#8 := by
  revert v
  decide

/-- The square does not depend on the top bit: `(v + 128)² = v² + 256 v + 128²` (R114). -/
theorem mul8_self_xor_top (v : Byte) : mul8 (v ^^^ 0x80#8) (v ^^^ 0x80#8) = mul8 v v := by
  calc (v ^^^ 0x80#8) * (v ^^^ 0x80#8) = (v + 0x80#8) * (v + 0x80#8) := by rw [xor_top_eq_add]
    _ = v * v + v * (0x80#8 + 0x80#8) + 0x80#8 * 0x80#8 := by ring
    _ = v * v := by simp

/-- So the top bit of STATE has no part in the next generator step (R36). -/
theorem Registers.generate_xor_top (r : Registers) :
    ({ r with state := r.state ^^^ 0x80#8 } : Registers).generate = r.generate := by
  simp [Registers.generate, mul8_self_xor_top]

/-! ## What a presented edge does, by the action it selects -/

/-- A stable edge is a reset or one command (R41). -/
theorem Edge.action_of_stable {e : Edge} (he : e ≠ .marginal) : e.action = .reset ∨ ∃ i, e.action = .command i := by
  cases e with
  | marginal => exact absurd rfl he
  | clean i =>
    cases hr : i.rst with
    | true => exact .inl (Input.action_of_rst hr)
    | false => exact .inr ⟨_, Input.action_of_not_rst hr⟩

/-- The edge presented is stable where every listed one is (R188, log 2). -/
theorem State.presented_ne_marginal {s : State} (h : StableEdges s.inputs) : s.presented ≠ .marginal := by
  unfold State.presented
  cases hi : s.inputs with
  | nil => simp
  | cons e es => exact h e (by simp [hi])

section
variable {s : State} {i : Instr}

/-- The registers after a reset edge. -/
theorem edgeRegs_of_reset (h : s.presented.action = .reset) : edgeRegs s = Registers.reset := by
  simp [edgeRegs, State.action_reset h]

/-- The registers after a command edge, in a block that has been reset. -/
theorem edgeRegs_of_command (hs : s.awaitingReset = false) (h : s.presented.action = .command i) :
    edgeRegs s = commandRegs i s.draw8 s.regs := by
  simp [edgeRegs, State.action_of_reset_seen hs, h]

/-- A step on a command edge is the command's meaning and then the end of the edge (R41). -/
theorem step_of_command (hs : s.awaitingReset = false) (h : s.presented.action = .command i) :
    step s = .next (s.withRegs (commandRegs i s.draw8 s.regs)).endEdge := by
  simp [step, edgeEffect, State.action_of_reset_seen hs, h, exec_eq]

end

/-- A step on one presented edge. -/
theorem step_present_single (s : State) (e : Edge) : step (s.present [e]) = .next (s.afterEdge e) := step_eq _

/-- The edge that `withFetchWord` places carries the word (log 2). -/
theorem State.presented_action_withFetchWord (s : State) (nbits w : Nat) :
    (s.withFetchWord nbits w).presented.action = .command (decode (BitVec.ofNat 10 w)) := by
  simp [State.withFetchWord, State.presented, Edge.action, Input.action, portWord_fields]

/-! ## The cases of a stable edge -/

section
variable {s : State} {e : Edge} {v : Byte}

/-- A construction's registers, whichever of the two commands it is (R90, R92). -/
theorem Constructs.edgeRegs_eq (h : Constructs s e v) : edgeRegs (s.present [e]) = s.regs.construct v := by
  obtain ⟨hs, ha | ⟨ha, hv⟩⟩ := h
  · rw [edgeRegs_command hs ha]
    rfl
  · rw [edgeRegs_command hs ha, hv]
    rfl

/-- A block that has been reset stays so. -/
theorem State.awaitingReset_afterEdge (hs : s.awaitingReset = false) (e : Edge) :
    (s.afterEdge e).awaitingReset = false := by
  simp [hs]

/-- A NEXT edge is one generator step of the registers. -/
theorem State.afterEdge_next (hs : s.awaitingReset = false) (ha : e.action = .command .next) :
    s.afterEdge e = { s with regs := s.regs.generate, edges := s.edges + 1 } := by
  have hregs : edgeRegs (s.present [e]) = s.regs.generate := edgeRegs_command hs ha
  simp [State.afterEdge, nextState, hregs, hs]

/-- After a NEXT edge nothing tells whether STATE[7] had been flipped before it (R36). -/
theorem State.afterEdge_xor_top_of_next (hs : s.awaitingReset = false) (ha : e.action = .command .next) :
    (s.withRegs { s.regs with state := s.regs.state ^^^ 0x80#8 }).afterEdge e = s.afterEdge e := by
  have hnext (r : Registers) : (s.withRegs r).afterEdge e = { s with regs := r.generate, edges := s.edges + 1 } :=
    State.afterEdge_next (s := s.withRegs r) hs ha
  rw [hnext, Registers.generate_xor_top, State.afterEdge_next hs ha]

/-- What a stable edge can do to the registers of a block that has been reset: construct, generate, idle or reset. -/
theorem edgeRegs_stable_cases (hs : s.awaitingReset = false) (he : e ≠ .marginal) :
    (∃ v, Constructs s e v ∧ edgeRegs (s.present [e]) = s.regs.construct v) ∨
    (e.action = .command .next ∧ edgeRegs (s.present [e]) = s.regs.generate) ∨
    (e.action = .command .nop ∧ edgeRegs (s.present [e]) = s.regs.idle) ∨
    (e.action = .reset ∧ edgeRegs (s.present [e]) = Registers.reset) := by
  obtain hr | ⟨i, hi⟩ := Edge.action_of_stable he
  · exact .inr (.inr (.inr ⟨hr, edgeRegs_reset hr⟩))
  · cases i with
    | nop => exact .inr (.inr (.inl ⟨hi, edgeRegs_command hs hi⟩))
    | seed v => exact .inl ⟨v, ⟨hs, .inl hi⟩, edgeRegs_command hs hi⟩
    | seedt => exact .inl ⟨_, ⟨hs, .inr ⟨hi, rfl⟩⟩, edgeRegs_command hs hi⟩
    | next => exact .inr (.inl ⟨hi, edgeRegs_command hs hi⟩)

end

/-! ## The flags as the commands treat them (R30, R31) -/

/-- Of the four commands NEXT alone leaves DVALID = 1. -/
@[simp] theorem commandRegs_dvalid (i : Instr) (d : Byte) (r : Registers) :
    (commandRegs i d r).dvalid = decide (i = .next) := by
  cases i <;> rfl

/-- DVALID marks the edge after a NEXT. -/
theorem dvalid_edgeRegs_iff {s : State} {e : Edge} (hs : s.awaitingReset = false) (he : e ≠ .marginal) :
    (edgeRegs (s.present [e])).dvalid = true ↔ e.action = .command .next := by
  obtain hr | ⟨i, hi⟩ := Edge.action_of_stable he
  · simp [edgeRegs_reset hr, hr, Registers.reset]
  · simp [edgeRegs_command hs hi, hi]

/-- No command reads DVALID. -/
theorem exec_dvalid_irrelevant (i : Instr) (s : State) (b : Bool) :
    exec i { s with regs := { s.regs with dvalid := b } } = exec i s := by
  cases i <;> rfl

/-! ## R41's step in exact arithmetic -/

/-- R14's formula for the nibble swap, narrowed to a byte. -/
theorem ofNat_swapNibbles (v : Byte) : BitVec.ofNat 8 (swapNibbles v.toNat) = swap4 v := by
  rw [swapNibbles, ← swap4_toNat, BitVec.ofNat_toNat, BitVec.setWidth_eq]

/-- With opcode 3, R41's step is the generator step. -/
theorem ruleStep_next (r : Registers) (t : Byte) {w : Nat} (hw : w / 256 = 3) : ruleStep r false w t = r.generate := by
  have hweyl : r.generate.weyl.toNat = (r.weyl.toNat + r.seed.toNat) % 256 := add8_toNat _ _
  have hstate : r.generate.state.toNat = (r.state.toNat * r.state.toNat % 256 + r.generate.weyl.toNat) % 256 := by
    rw [Registers.generate_state, add8_toNat, mul8_toNat]
    rfl
  unfold ruleStep
  rw [hw]
  simp only [← hweyl, ← hstate, ofNat_swapNibbles, BitVec.ofNat_toNat, BitVec.setWidth_eq]
  rfl

/-- With the reset pin low, R41's step on a command word's fields is the command the word decodes to. -/
theorem ruleStep_of_fields (r : Registers) (t : Byte) {w : Nat} {c : Opcode} {d : Byte} (hop : w / 256 = c.toNat)
    (himm : w % 256 = d.toNat) : ruleStep r false w t = commandRegs (decode (portWord c d)) t r := by
  have hd : BitVec.ofNat 8 d.toNat = d := by simp
  have hc : ∀ c : Opcode, c = 0b00#2 ∨ c = 0b01#2 ∨ c = 0b10#2 ∨ c = 0b11#2 := by decide
  rw [decode, opField_portWord, immField_portWord]
  obtain rfl | rfl | rfl | rfl := hc c
  · rw [ruleStep, hop]
    rfl
  · rw [ruleStep, hop, himm, hd]
    rfl
  · rw [ruleStep, hop]
    rfl
  · exact ruleStep_next r t hop

/-- The draw at a stable edge, as R41's input gives it. -/
theorem ruleStepInput_eq {s : State} {i : Input} (h : s.presented = .clean i) :
    ruleStepInput s.regs i (BitVec.ofNat 8 (Config.timeSrc s.site s.edges).toNat)
      = ruleStep s.regs i.rst (i.cmd.toNat * 256 + i.din.toNat) s.draw8 := by
  unfold ruleStepInput State.draw8 State.tns
  rw [h]
  cases hi : i.tns <;> simp [Edge.namedTns, hi]

/-- The registers after a stable edge are R41's step on them. -/
theorem edgeRegs_eq_ruleStepInput {s : State} {i : Input} (h : s.presented = .clean i)
    (hs : s.awaitingReset = false ∨ i.rst = true) :
    edgeRegs s = ruleStepInput s.regs i (BitVec.ofNat 8 (Config.timeSrc s.site s.edges).toNat) := by
  rw [ruleStepInput_eq h]
  cases hr : i.rst with
  | true =>
    rw [edgeRegs_of_reset (by rw [h]; exact Input.action_of_rst hr)]
    rfl
  | false =>
    rw [edgeRegs_of_command (hs.resolve_right (by simp [hr])) (by rw [h]; exact Input.action_of_not_rst hr)]
    exact (ruleStep_of_fields _ _ (by omega) (by omega)).symm

/-! ## The invariant of the registers, command by command -/

theorem GeneratorInv.reset : GeneratorInv Registers.reset :=
  ⟨by simp [Registers.reset], fun _ => ⟨rfl, rfl, rfl, rfl⟩, ⟨0#8, rfl⟩, ⟨0#8, rfl⟩⟩

theorem GeneratorInv.construct (v : Byte) (r : Registers) : GeneratorInv (r.construct v) :=
  ⟨by simp, by simp, ⟨0#8, by simp⟩, ⟨0#8, by simp⟩⟩

theorem GeneratorInv.idle {r : Registers} (h : GeneratorInv r) : GeneratorInv r.idle :=
  ⟨by simp, h.unseeded, h.weylMultiple, h.stateMultiple⟩

/-- WEYL gains one SEED, and the square of a multiple of SEED is one (R24, R111); from zeros only zeros come (R119). -/
theorem GeneratorInv.generate {r : Registers} (h : GeneratorInv r) : GeneratorInv r.generate := by
  obtain ⟨_, hzero, ⟨k, hk⟩, ⟨m, hm⟩⟩ := h
  have hweyl : r.generate.weyl = (k + 1) * r.seed := by
    rw [Registers.generate_weyl, hk, add8]
    ring
  have hstate : r.generate.state = (m * m * r.seed + (k + 1)) * r.seed := by
    rw [Registers.generate_state, ← Registers.generate_weyl, hweyl, hm, add8, mul8]
    ring
  refine ⟨fun _ => rfl, fun hs => ?_, ⟨_, hweyl⟩, ⟨_, hstate⟩⟩
  obtain ⟨hseed, -⟩ := hzero hs
  rw [Registers.generate_out, hstate, hweyl, Registers.generate_seed, hseed, BitVec.mul_zero, BitVec.mul_zero]
  exact ⟨rfl, rfl, rfl, rfl⟩

/-- Every command keeps the registers' invariant. -/
theorem GeneratorInv.commandRegs {r : Registers} (h : GeneratorInv r) (i : Instr) (d : Byte) :
    GeneratorInv (commandRegs i d r) := by
  cases i with
  | nop => exact h.idle
  | seed v => exact .construct v r
  | seedt => exact .construct d r
  | next => exact h.generate

/-- A stable edge that leaves no reset outstanding leaves the registers' invariant. -/
theorem GeneratorInv.edgeRegs {s : State} (h : s.awaitingReset = false → GeneratorInv s.regs)
    (he : s.presented ≠ .marginal) (ht : edgeAwaiting s = false) : GeneratorInv (edgeRegs s) := by
  obtain hr | ⟨i, hi⟩ := Edge.action_of_stable he
  · exact edgeRegs_of_reset hr ▸ .reset
  · have hs : s.awaitingReset = false := by simpa [edgeAwaiting, hi] using ht
    exact edgeRegs_of_command hs hi ▸ (h hs).commandRegs i s.draw8

/-- The invariant goes through an edge. -/
theorem Inv.nextState {s : State} (h : Inv s) : Inv (nextState s) :=
  ⟨fun e he => h.stable e (List.mem_of_mem_tail he),
    .edgeRegs h.generator (State.presented_ne_marginal h.stable)⟩

theorem Inv.reset : Inv State.reset := ⟨by simp [StableEdges, State.reset], fun _ => .reset⟩

/-! ## Runs over listed edges, as a fold -/

/-- The state after the edges a host presents, in order (R58). -/
def State.afterEdges (s : State) (es : List Edge) : State := es.foldl State.afterEdge s

@[simp] theorem State.afterEdges_nil (s : State) : s.afterEdges [] = s := rfl
@[simp] theorem State.afterEdges_cons (s : State) (e : Edge) (es : List Edge) :
    s.afterEdges (e :: es) = (s.afterEdge e).afterEdges es := rfl

/-- Every finite run answers. -/
theorem runEdges_eq (es : List Edge) (s : State) : runEdges es s = .next (s.afterEdges es) := by
  induction es generalizing s with
  | nil => rfl
  | cons e es ih => rw [runEdges_cons, ih, State.afterEdges_cons]

theorem Unbroken.of_cons {e : Edge} {es : List Edge} (h : Unbroken (e :: es)) :
    (e.action = .command .next ∨ e.action = .command .nop) ∧ Unbroken es :=
  List.forall_mem_cons.mp h

theorem countNext_cons_next {e : Edge} (es : List Edge) (h : e.action = .command .next) :
    countNext (e :: es) = countNext es + 1 := by
  simp [countNext, h]

theorem countNext_cons_of_ne {e : Edge} (es : List Edge) (h : e.action ≠ .command .next) :
    countNext (e :: es) = countNext es := by
  simp [countNext, h]

/-- DVALID plays no part in any number of generator steps, but where there are none. -/
theorem Registers.idle_iterate_generate_idle (n : Nat) (r : Registers) :
    (Registers.generate^[n] r.idle).idle = (Registers.generate^[n] r).idle := by
  cases n <;> rfl

/-- But for DVALID, NEXT and NOP edges amount to as many generator steps as there are NEXTs among them. -/
theorem idle_regs_afterEdges_unbroken {es : List Edge} (hes : Unbroken es) {s : State} (hs : s.awaitingReset = false) :
    (s.afterEdges es).regs.idle = (Registers.generate^[countNext es] s.regs).idle := by
  induction es generalizing s with
  | nil => rfl
  | cons e es ih =>
    obtain ⟨he, hes⟩ := hes.of_cons
    rw [State.afterEdges_cons, ih hes (State.awaitingReset_afterEdge hs e), State.afterEdge_regs]
    obtain he | he := he
    · rw [countNext_cons_next es he, Function.iterate_succ_apply, edgeRegs_command hs he]
      rfl
    · rw [countNext_cons_of_ne es (by simp [he]), edgeRegs_command hs he]
      exact Registers.idle_iterate_generate_idle _ _

/-! ## WEYL's closed form and period -/

@[simp] theorem Registers.iterate_generate_seed (n : Nat) (r : Registers) :
    (Registers.generate^[n] r).seed = r.seed := by
  induction n with
  | zero => rfl
  | succ n ih => rw [Function.iterate_succ_apply', generate_seed, ih]

/-- Every generator step adds SEED to WEYL (R24). -/
theorem Registers.iterate_generate_weyl_toNat (n : Nat) (r : Registers) :
    (Registers.generate^[n] r).weyl.toNat = (r.weyl.toNat + n * r.seed.toNat) % 256 := by
  induction n with
  | zero => simp [Nat.mod_eq_of_lt r.weyl.isLt]
  | succ n ih =>
    rw [Function.iterate_succ_apply', generate_weyl, add8_toNat, ih, iterate_generate_seed, Nat.mod_add_mod, Nat.succ_mul,
      Nat.add_assoc]

section
variable {s : State} {e : Edge} {v : Byte} {es : List Edge}

/-- But for DVALID, the registers some NEXT and NOP edges after a construction: so many generator steps from the construction. -/
theorem Constructs.idle_regs_afterEdges (h : Constructs s e v) (hes : Unbroken es) :
    (s.afterEdges (e :: es)).regs.idle = (Registers.generate^[countNext es] (s.regs.construct v)).idle := by
  rw [State.afterEdges_cons, idle_regs_afterEdges_unbroken hes (State.awaitingReset_afterEdge h.1 e), State.afterEdge_regs,
    h.edgeRegs_eq]

theorem Constructs.seed_afterEdges (h : Constructs s e v) (hes : Unbroken es) :
    (s.afterEdges (e :: es)).regs.seed = v := by
  simpa using congrArg Registers.seed (h.idle_regs_afterEdges hes)

theorem Constructs.weyl_afterEdges (h : Constructs s e v) (hes : Unbroken es) :
    (s.afterEdges (e :: es)).regs.weyl.toNat = (countNext es * v.toNat) % 256 := by
  simpa [Registers.iterate_generate_weyl_toNat] using
    congrArg (fun r => r.weyl.toNat) (h.idle_regs_afterEdges hes)

end

/-- Multiples of a byte agree modulo 256 exactly where the factors agree modulo the byte's period (R25). -/
theorem mul_mod_eq_iff_mod_weylPeriod (v : Byte) (a b : Nat) :
    a * v.toNat % 256 = b * v.toNat % 256 ↔ a % weylPeriod v = b % weylPeriod v := by
  constructor
  · intro h
    have hab : a ≡ b [MOD 256 / Nat.gcd 256 v.toNat] := Nat.ModEq.cancel_right_div_gcd (by decide) h
    rwa [Nat.gcd_comm] at hab
  · intro h
    obtain ⟨q, hq⟩ := Nat.gcd_dvd_left v.toNat 256
    have hg : a * Nat.gcd v.toNat 256 ≡ b * Nat.gcd v.toNat 256 [MOD 256] := by
      have := Nat.ModEq.mul_right' (Nat.gcd v.toNat 256) (show a ≡ b [MOD weylPeriod v] from h)
      rwa [weylPeriod, Nat.div_mul_cancel (Nat.gcd_dvd_right v.toNat 256)] at this
    have := hg.mul_right q
    rwa [Nat.mul_assoc, Nat.mul_assoc, ← hq] at this

theorem weylPeriod_of_odd {v : Byte} (h : v.toNat % 2 = 1) : weylPeriod v = 256 := by
  have hc : Nat.Coprime v.toNat (2 ^ 8) := (Nat.coprime_two_right.mpr (Nat.odd_iff.mpr h)).pow_right 8
  rw [weylPeriod, show Nat.gcd v.toNat 256 = 1 from hc]

theorem weylPeriod_le_of_even {v : Byte} (h : v.toNat % 2 = 0) : weylPeriod v ≤ 128 := by
  have hpos : 0 < Nat.gcd v.toNat 256 := Nat.gcd_pos_of_pos_right _ (by decide)
  have htwo : 2 ≤ Nat.gcd v.toNat 256 :=
    Nat.le_of_dvd hpos (Nat.dvd_gcd (Nat.dvd_of_mod_eq_zero h) (by decide))
  exact Nat.div_le_div_left htwo (by decide)

/-! ## Two blocks with one generator -/

/-- The registers agree on everything but OUT, the one register a construction keeps (R95). -/
structure Registers.SameGenerator (r r' : Registers) : Prop where
  seed : r.seed = r'.seed
  weyl : r.weyl = r'.weyl
  state : r.state = r'.state
  dvalid : r.dvalid = r'.dvalid
  seeded : r.seeded = r'.seeded

section
variable {r r' : Registers}

/-- No command brings OUT into another register. -/
theorem Registers.SameGenerator.commandRegs (h : r.SameGenerator r') (i : Instr) (d : Byte) :
    (commandRegs i d r).SameGenerator (commandRegs i d r') := by
  obtain ⟨hseed, hweyl, hstate, -, hseeded⟩ := h
  cases i with
  | nop => exact ⟨hseed, hweyl, hstate, rfl, hseeded⟩
  | seed v => exact ⟨rfl, rfl, rfl, rfl, rfl⟩
  | seedt => exact ⟨rfl, rfl, rfl, rfl, rfl⟩
  | next => exact ⟨hseed, by simp [Machine.commandRegs, *], by simp [Machine.commandRegs, *], rfl, hseeded⟩

/-- A command that leaves DVALID = 1 leaves the same OUT too. -/
theorem Registers.SameGenerator.out_commandRegs (h : r.SameGenerator r') (i : Instr) (d : Byte)
    (hd : (Machine.commandRegs i d r).dvalid = true) : (Machine.commandRegs i d r).out = (Machine.commandRegs i d r').out := by
  obtain rfl : i = .next := by simpa using hd
  exact congrArg swap4 (h.commandRegs .next d).state

end

/-- An edge that draws nothing unnamed is a reset, or one command with one draw wherever it is presented (R93). -/
theorem DrawNamed.cases {f : Edge} (hf : DrawNamed f) : f.action = .reset ∨ ∃ i d, ∀ s : State,
    s.awaitingReset = false → edgeRegs (s.present [f]) = commandRegs i d s.regs := by
  obtain ⟨hm, hdraw⟩ := hf
  obtain hr | ⟨i, hi⟩ := Edge.action_of_stable hm
  · exact .inl hr
  · refine .inr ?_
    by_cases ht : i = .seedt
    · subst ht
      obtain ⟨v, hv⟩ := hdraw hi
      exact ⟨.seedt, BitVec.ofNat 8 v, fun s hs => by
        rw [edgeRegs_command hs hi, State.draw8_of_named (s := s.present [f]) hv]⟩
    · refine ⟨i, 0#8, fun s hs => ?_⟩
      rw [edgeRegs_command hs hi]
      cases i with
      | seedt => exact absurd rfl ht
      | nop | seed | next => rfl

section
variable {s s' : State}

/-- Such an edge keeps two blocks' generators the same, and where it leaves DVALID = 1 their OUT. -/
theorem DrawNamed.sameGenerator {f : Edge} (hf : DrawNamed f) (hs : s.awaitingReset = false)
    (hs' : s'.awaitingReset = false) (h : s.regs.SameGenerator s'.regs) :
    (edgeRegs (s.present [f])).SameGenerator (edgeRegs (s'.present [f])) ∧
      ((edgeRegs (s.present [f])).dvalid = true → (edgeRegs (s.present [f])).out = (edgeRegs (s'.present [f])).out) := by
  obtain hr | ⟨i, d, hi⟩ := hf.cases
  · rw [edgeRegs_reset hr, edgeRegs_reset hr]
    exact ⟨⟨rfl, rfl, rfl, rfl, rfl⟩, fun _ => rfl⟩
  · rw [hi s hs, hi s' hs']
    exact ⟨h.commandRegs i d, h.out_commandRegs i d⟩

/-- Blocks with one generator collect the same outputs over the same edges, and keep the same generator. -/
theorem sameGenerator_run {es : List Edge} (hes : ∀ f ∈ es, DrawNamed f) (hs : s.awaitingReset = false)
    (hs' : s'.awaitingReset = false) (h : s.regs.SameGenerator s'.regs) :
    outputsOf es s = outputsOf es s' ∧ (s.afterEdges es).regs.SameGenerator (s'.afterEdges es).regs := by
  induction es generalizing s s' with
  | nil => exact ⟨rfl, h⟩
  | cons f es ih =>
    obtain ⟨hf, hes⟩ := List.forall_mem_cons.mp hes
    obtain ⟨hregs, hout⟩ := hf.sameGenerator hs hs' h
    obtain ⟨hrest, hend⟩ :=
      ih hes (State.awaitingReset_afterEdge hs f) (State.awaitingReset_afterEdge hs' f) hregs
    refine ⟨?_, hend⟩
    rw [outputsOf_cons, outputsOf_cons, hrest, State.afterEdge_regs, State.afterEdge_regs, ← hregs.dvalid]
    cases hd : (edgeRegs (s.present [f])).dvalid with
    | false => rfl
    | true => rw [hout hd]

/-- A construction adds nothing to the outputs. -/
theorem Constructs.outputsOf_cons {e : Edge} {v : Byte} (h : Constructs s e v) (es : List Edge) :
    outputsOf (e :: es) s = outputsOf es (s.afterEdge e) := by
  simp [Machine.outputsOf_cons, h.edgeRegs_eq]

/-- Constructed with one seed, two blocks have the same generator. -/
theorem Constructs.sameGenerator {e e' : Edge} {v : Byte} (h : Constructs s e v) (h' : Constructs s' e' v) :
    (s.afterEdge e).regs.SameGenerator (s'.afterEdge e').regs := by
  rw [State.afterEdge_regs, State.afterEdge_regs, h.edgeRegs_eq, h'.edgeRegs_eq]
  exact ⟨rfl, rfl, rfl, rfl, rfl⟩

end

end Sys2Proof.Machine

namespace Sys2Proof.Proofs

open Sys2Proof.Machine

/-- Settles O51: a reset edge establishes the invariant, every command keeps it, and a listed edge is no other. -/
theorem stepKeepsTheInvariant : Obligations.StepKeepsTheInvariant := by
  intro s t h hst
  rw [step_next hst]
  exact h.nextState

/-- Settles O9, by the reset pin and the four opcodes. -/
theorem stepRefinesTheRules : Obligations.StepRefinesTheRules := by
  intro s i hi hs
  refine ⟨nextState s, step_eq s, edgeRegs_eq_ruleStepInput hi hs, rfl, rfl, rfl, ?_⟩
  obtain hs | hr := hs
  · exact edgeAwaiting_of_reset_seen hs
  · simp [edgeAwaiting, hi, Edge.action, Input.action_of_rst hr]

/-- Settles O32: the edges amount to so many generator steps, and each adds SEED to WEYL. -/
theorem weylClosedForm : Obligations.WeylClosedForm := fun s e _ es h hes =>
  ⟨s.afterEdges (e :: es), runEdges_eq _ s, h.weyl_afterEdges hes, h.seed_afterEdges hes⟩

/-- Settles O33, by WEYL's closed form and cancellation modulo 256. -/
theorem weylPeriodIsExact : Obligations.WeylPeriodIsExact := by
  refine ⟨fun s e v es es' h hes hes' => ?_, fun v => ⟨weylPeriod_of_odd, fun hv _ => weylPeriod_le_of_even hv, ?_⟩⟩
  · refine ⟨s.afterEdges (e :: es), s.afterEdges (e :: es'), runEdges_eq _ s, runEdges_eq _ s, ?_⟩
    rw [← BitVec.toNat_inj, h.weyl_afterEdges hes, h.weyl_afterEdges hes', mul_mod_eq_iff_mod_weylPeriod]
  · rintro rfl
    rfl

/-- Settles O35: the two constructions leave the same generator, and draws that are named keep it so. -/
theorem sameSeedSameOutputs : Obligations.SameSeedSameOutputs := by
  intro s s' e e' v es h h' hes
  obtain ⟨hout, hend⟩ := sameGenerator_run hes (State.awaitingReset_afterEdge h.1 e)
    (State.awaitingReset_afterEdge h'.1 e') (h.sameGenerator h')
  refine ⟨?_, s.afterEdges (e :: es), s'.afterEdges (e' :: es), runEdges_eq _ s, runEdges_eq _ s',
    hend.seed, hend.weyl, hend.state, hend.dvalid, hend.seeded⟩
  rw [h.outputsOf_cons, h'.outputsOf_cons, hout]

/-- Settles O43, by the four cases of a stable edge. -/
theorem registersChangeOnlyByTheirWriters : Obligations.RegistersChangeOnlyByTheirWriters := by
  intro s e hs he
  refine ⟨s.afterEdge e, step_present_single s e, rfl, ?_⟩
  obtain ⟨v, hv, hr⟩ | ⟨ha, hr⟩ | ⟨ha, hr⟩ | ⟨ha, hr⟩ := edgeRegs_stable_cases hs he
  · have hc : ∃ v, Constructs s e v := ⟨v, hv⟩
    simp [hr, hc]
  · simp [hr, ha]
  · simp [hr]
  · simp [ha]

/-- Settles O7: the presented inputs select the decoded command, and a command writes registers only. -/
theorem stepRunsTheDecodedCommand : Obligations.StepRunsTheDecodedCommand := by
  intro s i hs hi hr
  have ha : s.presented.action = .command (decode (portWord i.cmd i.din)) := by
    rw [hi]
    exact Input.action_of_not_rst hr
  exact ⟨_, exec_eq _ s, step_of_command hs ha, rfl, rfl, rfl, hs⟩

/-- Settles O8: the placed edge selects the command its word decodes to. -/
theorem placedWordRunsNext : Obligations.PlacedWordRunsNext := by
  intro s nbits w hs hw
  have hdec : decodeTableWord nbits w = some (decode (BitVec.ofNat 10 w)) := by
    simp [decodeTableWord, decodeNumber, isCommandWord, hw, Except.toOption]
  exact ⟨_, _, hdec, exec_eq _ _, step_of_command hs (s.presented_action_withFetchWord nbits w), rfl⟩

/-- Settles O12: the marginal edge selects the free value of U4, or of R182 where a reset is outstanding. -/
theorem marginalEdgeLeavesAnyRegisters : Obligations.MarginalEdgeLeavesAnyRegisters := by
  intro s h
  rw [step_eq]
  cases hs : s.awaitingReset <;> simp [nextState, edgeRegs, edgeAwaiting, State.action, Edge.action, h, hs]

/-- Settles O13, by the definition of the reset state. -/
theorem resetStateRegisters : Obligations.ResetStateRegisters := ⟨rfl, rfl, rfl, rfl, rfl, rfl⟩

/-- Settles O28: the swap is its own inverse, and STATE reaches the next state through its square only. -/
theorem outRevealsStateAndTopBitIsLost : Obligations.OutRevealsStateAndTopBitIsLost := by
  intro s e hs ha
  refine ⟨s.afterEdge e, step_present_single s e, ?_⟩
  have hflip := (step_present_single _ e).trans (congrArg _ (State.afterEdge_xor_top_of_next hs ha))
  rw [State.afterEdge_next hs ha] at hflip ⊢
  exact ⟨rfl, (swap4_swap4 _).symm, swap4_getLsbD _ (by decide), hflip⟩

/-- Settles O41: of the commands NEXT alone leaves DVALID = 1, and none reads it. -/
theorem dvalidMarksTheEdgeAfterNext : Obligations.DvalidMarksTheEdgeAfterNext := by
  refine ⟨fun s e hs he => ?_, exec_dvalid_irrelevant⟩
  refine ⟨s.afterEdge e, step_present_single s e, dvalid_edgeRegs_iff hs he, fun ha => ?_⟩
  rw [State.dout, State.afterEdge_regs, edgeRegs_command hs ha]
  rfl

/-- Settles O42, by the cases of the edge; no command writes another register by SEEDED. -/
theorem seededTellsOfAConstruction : Obligations.SeededTellsOfAConstruction := by
  refine ⟨fun s e hs _ => ?_, fun i s b => ?_⟩
  · refine ⟨s.afterEdge e, step_present_single s e, ?_, fun ha => ?_, ?_⟩
    · rintro ⟨v, hv⟩
      simp [State.seededPort, hv.edgeRegs_eq]
    · simp [State.seededPort, edgeRegs_reset ha, Registers.reset]
    · rintro (ha | ha) <;> simp [State.seededPort, edgeRegs_command hs ha, commandRegs]
  · refine ⟨_, _, exec_eq i s, exec_eq i _, ?_⟩
    cases i <;> exact ⟨rfl, rfl, rfl, rfl, rfl⟩

/-- Settles O44: presenting edges touches no register. -/
theorem outputsComeFromRegistersOnly : Obligations.OutputsComeFromRegistersOnly := fun _ _ =>
  ⟨rfl, rfl, rfl, rfl, rfl, rfl⟩

/-- Settles O52, by the zero registers. -/
theorem invariantHoldsAtReset : Obligations.InvariantHoldsAtReset := Inv.reset

end Sys2Proof.Proofs

/-! # Ordering, sharing and idempotency, spec/20_memory.md -/

namespace Sys2Proof.Machine

/-! ## R41's step over inputs that name their draw -/

/-- An input that names its time count leaves R41's step no free draw (R76). -/
theorem ruleStepInput_of_named {i : Input} (hi : i.tns ≠ none) (r : Registers) (t t' : Byte) :
    ruleStepInput r i t = ruleStepInput r i t' := by
  obtain ⟨v, hv⟩ := Option.ne_none_iff_exists'.mp hi
  simp [ruleStepInput, hv]

/-- The registers after one presented input that names its time count are R41's step on them. -/
theorem State.regs_afterEdge_of_named {s : State} (hs : s.awaitingReset = false) {i : Input} (hi : i.tns ≠ none)
    (t : Byte) : (s.afterEdge (.clean i)).regs = ruleStepInput s.regs i t :=
  (edgeRegs_eq_ruleStepInput (s := s.present [.clean i]) rfl (.inl hs)).trans (ruleStepInput_of_named hi _ _ _)

/-- The registers after listed inputs that name their time counts are the left fold of R41's step (R58). -/
theorem State.regs_afterEdges_of_named {is : List Input} (his : ∀ i ∈ is, i.tns ≠ none) {s : State}
    (hs : s.awaitingReset = false) (t : Byte) :
    (s.afterEdges (is.map .clean)).regs = is.foldl (fun r i => ruleStepInput r i t) s.regs := by
  induction is generalizing s with
  | nil => rfl
  | cons i is ih =>
    obtain ⟨hi, his⟩ := List.forall_mem_cons.mp his
    rw [List.map_cons, State.afterEdges_cons, ih his (State.awaitingReset_afterEdge hs _),
      State.regs_afterEdge_of_named hs hi t, List.foldl_cons]

/-- A run over presented edges uses up none of the edges listed before. -/
@[simp] theorem State.inputs_afterEdges (es : List Edge) (s : State) : (s.afterEdges es).inputs = s.inputs := by
  induction es generalizing s with
  | nil => rfl
  | cons e es ih => rw [State.afterEdges_cons, ih, State.afterEdge_inputs]

/-! ## What a platform event answers at a block there is -/

/-- Two drivers of one port are refused by name (R60, R151, U5). -/
theorem unitEvent_of_two_le {drives : List Edge} (h : 2 ≤ drives.length) (u : State) :
    unitEvent drives u = .refused .twoDrivers := by
  match drives, h with
  | _ :: _ :: _, _ => rfl

/-- At most one driver: the block takes its step. -/
theorem unitEvent_of_le_one {drives : List Edge} (h : drives.length ≤ 1) (u : State) :
    unitEvent drives u = .next (nextState (u.present drives)) := by
  match drives, h with
  | [], _ => exact step_eq u
  | [e], _ => exact step_present_single u e

section
variable {p : Platform} {k : Nat} {u u' : State} {drives : List Edge}

/-- A block there is holds what it was replaced by. -/
theorem Platform.getElem?_setUnit_self (hu : p.units[k]? = some u) (u' : State) :
    (p.setUnit k u').units[k]? = some u' := by
  obtain ⟨hk, -⟩ := List.getElem?_eq_some_iff.mp hu
  exact List.getElem?_set_self hk

/-- An edge that a block answers is answered by the platform with that block replaced. -/
theorem Platform.apply_edge_of_next (hu : p.units[k]? = some u) (h : unitEvent drives u = .next u') :
    p.apply (.edge k drives) = .next (p.setUnit k u') := by
  simp [Platform.apply, hu, h]

/-- An edge that is refused at a block is refused by the platform, for the same reason. -/
theorem Platform.apply_edge_of_refused {r : Refusal} (hu : p.units[k]? = some u)
    (h : unitEvent drives u = .refused r) : p.apply (.edge k drives) = .refused r := by
  simp [Platform.apply, hu, h]

/-- A power cycle at a block there is answers (R161, log 6). -/
theorem Platform.apply_powerCycle (hu : p.units[k]? = some u) :
    p.apply (.powerCycle k) = .next (p.setUnit k u.powerCycle) := by
  simp [Platform.apply, hu]

end

/-! ## Commands executed twice -/

/-- A construction keeps OUT alone, so the last one counts. -/
@[simp] theorem Registers.construct_construct (v w : Byte) (r : Registers) :
    (r.construct v).construct w = r.construct w := rfl

@[simp] theorem Registers.idle_idle (r : Registers) : r.idle.idle = r.idle := rfl

/-- A command whose effect on the registers is idempotent for every draw may be executed twice for once (R57). -/
theorem exec_twice_of_commandRegs_idempotent {i : Instr}
    (h : ∀ (d d' : Byte) (r : Registers), commandRegs i d' (commandRegs i d r) = commandRegs i d r) (s : State) :
    ∃ t, exec i s = .next t ∧ exec i t = .next t := by
  refine ⟨_, exec_eq i s, (exec_eq i _).trans ?_⟩
  rw [State.withRegs_regs, h]
  rfl

/-- The edge of the assembler's annotated SEEDT line executes SEEDT, whatever count it names (R76, R78). -/
@[simp] theorem seedtEdge_action (v : Nat) : (seedtEdge v).action = .command .seedt := by
  simp [seedtEdge, Edge.action, Input.action, decode]

/-- A SEEDT edge that names a time count constructs with the count's low byte (R76, R92). -/
theorem constructs_seedtEdge {s : State} (hs : s.awaitingReset = false) (v : Nat) :
    Constructs s (seedtEdge v) (BitVec.ofNat 8 v) :=
  ⟨hs, .inr ⟨seedtEdge_action v, State.draw8_of_named (s := s.present [seedtEdge v]) rfl⟩⟩

end Sys2Proof.Machine

namespace Sys2Proof.Proofs

open Sys2Proof.Machine

/-- Settles O10, by induction on the inputs: one named input is one step of R41. -/
theorem runIsTheLeftFoldOfTheRules : Obligations.RunIsTheLeftFoldOfTheRules := fun s is hs his =>
  ⟨s.afterEdges (is.map .clean), runEdges_eq _ s, State.regs_afterEdges_of_named his hs _, State.inputs_afterEdges _ s⟩

/-- Settles O49, by the number of drivers at a block there is. -/
theorem onlyTwoDriversAreRefused : Obligations.OnlyTwoDriversAreRefused := by
  intro p k drives hk
  have hu : p.units[k]? = some p.units[k] := List.getElem?_eq_getElem hk
  refine ⟨fun h => Platform.apply_edge_of_refused hu (unitEvent_of_two_le h _), p.units[k], _, hu,
    Platform.apply_powerCycle hu, Platform.getElem?_setUnit_self hu _, fun h => ?_⟩
  exact ⟨_, _, Platform.apply_edge_of_next hu (unitEvent_of_le_one h _), step_eq _, Platform.getElem?_setUnit_self hu _⟩

/-- Settles O45. SEEDT with the draws 0 and 1 leaves another SEED than with 0 alone; NEXT with seed 1 takes WEYL to 1 and
then to 2. -/
theorem idempotencyOfCommands : Obligations.IdempotencyOfCommands := by
  refine ⟨fun s v => ?seed, fun s => ?nop, fun s hs => ?seedt, ?next⟩
  case seed => exact exec_twice_of_commandRegs_idempotent (i := .seed v) (fun _ _ r => r.construct_construct v v) s
  case nop => exact exec_twice_of_commandRegs_idempotent (i := .nop) (fun _ _ r => r.idle_idle) s
  case seedt =>
    refine ⟨seedtEdge 0, seedtEdge 1, _, _, seedtEdge_action 0, seedtEdge_action 1, runEdges_eq _ s, runEdges_eq _ s,
      fun h => ?_⟩
    have hs' := State.awaitingReset_afterEdge hs (seedtEdge 0)
    have hone : (s.afterEdges [seedtEdge 0]).regs.seed = 0#8 :=
      (constructs_seedtEdge hs 0).seed_afterEdges (List.forall_mem_nil _)
    have htwo : (s.afterEdges [seedtEdge 0, seedtEdge 1]).regs.seed = 1#8 :=
      (constructs_seedtEdge hs' 1).seed_afterEdges (List.forall_mem_nil _)
    rw [h, htwo] at hone
    exact absurd hone (by decide)
  case next =>
    exact ⟨State.reset.withRegs (Registers.reset.construct 1#8), _, _, exec_eq .next _, exec_eq .next _, by decide⟩

end Sys2Proof.Proofs

/-! # Command words, the assembler and the pseudo-instructions, spec/30_encoding.md -/

namespace Sys2Proof

/-! ## The fields of a word -/

theorem toNat_opField (w : CommandWord) : (opField w).toNat = w.toNat / 256 := by
  have hw : w.toNat < 1024 := w.isLt
  rw [opField, BitVec.extractLsb'_toNat, Nat.shiftRight_eq_div_pow]
  omega

theorem toNat_immField (w : CommandWord) : (immField w).toNat = w.toNat % 256 := by
  rw [immField, BitVec.extractLsb'_toNat, Nat.shiftRight_zero]

/-- The mask keeps the opcode and clears the immediate (R74). -/
theorem and_matchMask (w : CommandWord) : w &&& matchMask = portWord (opField w) 0x00#8 := by
  calc w &&& matchMask = portWord (opField w) (immField w) &&& portWord 0b11#2 0x00#8 := by rw [portWord_fields]; rfl
    _ = portWord (opField w &&& 0b11#2) (immField w &&& 0x00#8) := BitVec.and_append
    _ = portWord (opField w) 0x00#8 := by
      rw [BitVec.and_zero, show (0b11#2 : Opcode) = BitVec.allOnes 2 from rfl, BitVec.and_allOnes]

/-- A word lies in a command's row of the table exactly if it carries the row's opcode. -/
theorem and_matchMask_eq_matchBits_iff (w : CommandWord) (i : Instr) :
    w &&& matchMask = matchBits i ↔ opField w = opField (matchBits i) := by
  have hbits : matchBits i = portWord (opField (matchBits i)) 0x00#8 := by
    rw [← and_matchMask]
    cases i <;> rw [matchBits] <;> rfl
  rw [and_matchMask]
  constructor
  · intro h
    rw [← h, opField_portWord]
  · intro h
    rw [h, ← hbits]

/-! ## What decodes to each command (R75) -/

theorem opcode_cases (c : Opcode) : c = 0b00#2 ∨ c = 0b01#2 ∨ c = 0b10#2 ∨ c = 0b11#2 := by
  revert c
  decide

theorem opField_matchBits_seed (v : Byte) : opField (matchBits (.seed v)) = 0b01#2 := by
  rw [matchBits]
  rfl

section
variable {w : CommandWord}

theorem decode_of_opField_nop (h : opField w = 0b00#2) : decode w = .nop := by simp [decode, h]

theorem decode_of_opField_seed (h : opField w = 0b01#2) : decode w = .seed (immField w) := by simp [decode, h]

theorem decode_of_opField_seedt (h : opField w = 0b10#2) : decode w = .seedt := by simp [decode, h]

theorem decode_of_opField_next (h : opField w = 0b11#2) : decode w = .next := by simp [decode, h]

/-- Every word lies in the row of the command it decodes to. -/
theorem opField_matchBits_decode (w : CommandWord) : opField (matchBits (decode w)) = opField w := by
  obtain h | h | h | h := opcode_cases (opField w)
  · rw [decode_of_opField_nop h, h]; rfl
  · rw [decode_of_opField_seed h, h, opField_matchBits_seed]
  · rw [decode_of_opField_seedt h, h]; rfl
  · rw [decode_of_opField_next h, h]; rfl

/-- A word decodes to a command exactly if it carries the command's opcode, and, for SEED, its immediate. -/
theorem decode_eq_iff (w : CommandWord) (i : Instr) :
    decode w = i ↔ opField w = opField (matchBits i) ∧ ∀ v, i = .seed v → immField w = v := by
  constructor
  · rintro rfl
    refine ⟨(opField_matchBits_decode w).symm, fun v hv => ?_⟩
    have hop : opField w = 0b01#2 := by
      rw [← opField_matchBits_decode, hv, opField_matchBits_seed]
    exact Instr.seed.inj ((decode_of_opField_seed hop).symm.trans hv)
  · rintro ⟨hop, himm⟩
    cases i with
    | nop => exact decode_of_opField_nop hop
    | seed v => rw [decode_of_opField_seed (hop.trans (opField_matchBits_seed v)), himm v rfl]
    | seedt => exact decode_of_opField_seedt hop
    | next => exact decode_of_opField_next hop

end

/-- Every opcode but SEED's selects its command whatever the immediate (R74). -/
theorem decode_portWord_of_ne_seed {c : Opcode} (h : c ≠ 0b01#2) (d d' : Byte) :
    decode (portWord c d) = decode (portWord c d') := by
  simp [decode, h]

/-! ## The assembler's word -/

namespace Laws.TableRow

/-- Every command's word lies in its row, with its canonical immediate. -/
theorem statement (i : Instr) : Statement i :=
  match i with
  | .nop => nop
  | .seed v => seed v
  | .seedt => seedt
  | .next => next

/-- The immediate the assembler drives for a decoded word: the word's own for SEED, else zero. -/
theorem canonicalImm_decode (w : CommandWord) :
    canonicalImm (decode w) = if opField w = 0b01#2 then immField w else 0x00#8 := by
  obtain h | h | h | h := opcode_cases (opField w)
  · rw [decode_of_opField_nop h, h]; rfl
  · rw [decode_of_opField_seed h, h]; rfl
  · rw [decode_of_opField_seedt h, h]; rfl
  · rw [decode_of_opField_next h, h]; rfl

end Laws.TableRow

theorem opField_encode (i : Instr) : opField (encode i) = opField (matchBits i) :=
  (and_matchMask_eq_matchBits_iff _ i).mp (Laws.TableRow.statement i).1

theorem immField_encode (i : Instr) : immField (encode i) = Laws.TableRow.canonicalImm i :=
  (Laws.TableRow.statement i).2

@[simp] theorem decode_encode (i : Instr) : decode (encode i) = i := by
  refine (decode_eq_iff _ i).mpr ⟨opField_encode i, ?_⟩
  rintro v rfl
  exact immField_encode (.seed v)

/-- Encoding what a word decodes to keeps the opcode, and the immediate where it means something (R74). -/
theorem encode_decode (w : CommandWord) :
    encode (decode w) = portWord (opField w) (if opField w = 0b01#2 then immField w else 0x00#8) := by
  rw [← portWord_fields (encode (decode w)), opField_encode, immField_encode, opField_matchBits_decode,
    Laws.TableRow.canonicalImm_decode]

/-! ## Numbers as command words (R70) -/

theorem decodeNumber_of_lt {w : Nat} (h : w < 1024) : decodeNumber w = .ok (decode (BitVec.ofNat 10 w)) := by
  simp [decodeNumber, isCommandWord, h]

theorem decodeNumber_of_le {w : Nat} (h : 1024 ≤ w) : decodeNumber w = .error .widerThanTenBits := by
  simp [decodeNumber, isCommandWord, Nat.not_lt.mpr h]

namespace Machine

/-! ## The edges and words of the assembler's lines (R76 to R78) -/

@[simp] theorem commandEdge_action (i : Instr) : (commandEdge i).action = .command i := by simp [commandEdge]

@[simp] theorem commandEdge_word? (i : Instr) : (commandEdge i).word? = some (encode i) := by
  simp [commandEdge, wordEdge, Edge.word?, portWord_fields]

/-- The annotation of a SEEDT line names the count and leaves the word as it is. -/
@[simp] theorem seedtEdge_word? (v : Nat) : (seedtEdge v).word? = some (encode .seedt) := by
  simp [seedtEdge, Edge.word?, portWord, encode]

theorem AsmLine.edges_seed_of_le {v : Nat} (h : v ≤ 255) :
    AsmLine.edges (.seed v) = .ok [commandEdge (.seed (BitVec.ofNat 8 v))] := by
  simp [edges, isSeedByte, Nat.lt_succ_of_le h]

theorem AsmLine.edges_seed_of_lt {v : Nat} (h : 255 < v) : AsmLine.edges (.seed v) = .error (.seedOutOfRange v) := by
  simp [edges, isSeedByte, Nat.not_lt.mpr h]

/-- A seed in range goes into the word as it is. -/
theorem encode_seed_of_le {v : Nat} (h : v ≤ 255) :
    encode (.seed (BitVec.ofNat 8 v)) = 0x100#10 ||| BitVec.ofNat 10 v := by
  have hv : (BitVec.ofNat 8 v).setWidth 10 = BitVec.ofNat 10 v := by
    apply BitVec.eq_of_toNat_eq
    simp only [BitVec.toNat_setWidth, BitVec.toNat_ofNat]
    omega
  rw [encode, hv]

/-! ## Edges with one effect, and runs of NEXT and of NOP -/

/-- Edges that select the same action and name the same count have the same effect. -/
theorem State.afterEdge_congr {e e' : Edge} (ha : e.action = e'.action) (ht : e.namedTns = e'.namedTns) (s : State) :
    s.afterEdge e = s.afterEdge e' := by
  have haction : (s.present [e]).action = (s.present [e']).action := by
    rw [State.action, State.presented_present_cons, ha]
    rfl
  have hdraw : (s.present [e]).draw8 = (s.present [e']).draw8 := by simp [State.draw8, State.tns, ht]
  have hregs : edgeRegs (s.present [e]) = edgeRegs (s.present [e']) := by simp [edgeRegs, haction, hdraw]
  have hawaiting : edgeAwaiting (s.present [e]) = edgeAwaiting (s.present [e']) := by
    rw [edgeAwaiting, State.presented_present_cons, ha]
    rfl
  simp [State.afterEdge, nextState, hregs, hawaiting]

theorem finalRegisters_eq (es : List Edge) (s : State) : finalRegisters es s = some (s.afterEdges es).regs := by
  rw [finalRegisters, runEdges_eq]

section
variable {es : List Edge} {s : State}

/-- NEXT edges alone yield OUT after each of them, in order (R53). -/
theorem outputsOf_of_next (hs : s.awaitingReset = false) (hes : ∀ e ∈ es, e.action = .command .next) :
    outputsOf es s = (List.range es.length).map fun k => (s.afterEdges (es.take (k + 1))).regs.out := by
  induction es generalizing s with
  | nil => rfl
  | cons e es ih =>
    obtain ⟨he, hes⟩ := List.forall_mem_cons.mp hes
    have hd : (s.afterEdge e).regs.dvalid = true := (dvalid_edgeRegs_iff hs (by rintro rfl; cases he)).mpr he
    rw [outputsOf_cons, if_pos hd, ih (State.awaitingReset_afterEdge hs e) hes, List.length_cons,
      List.range_succ_eq_map, List.map_cons, List.map_map]
    rfl

/-- NOP edges yield nothing. -/
theorem outputsOf_of_nop (hs : s.awaitingReset = false) (hes : ∀ e ∈ es, e.action = .command .nop) :
    outputsOf es s = [] := by
  induction es generalizing s with
  | nil => rfl
  | cons e es ih =>
    obtain ⟨he, hes⟩ := List.forall_mem_cons.mp hes
    simp [outputsOf_cons, ih (State.awaitingReset_afterEdge hs e) hes, edgeRegs_command hs he]

end

/-- The edges of FILL and IDLE are all the one command's (R77). -/
theorem action_of_mem_replicate_commandEdge {n : Nat} {i : Instr} {e : Edge}
    (he : e ∈ List.replicate n (commandEdge i)) : e.action = .command i := by
  rw [List.eq_of_mem_replicate he, commandEdge_action]

end Machine

end Sys2Proof

namespace Sys2Proof.Proofs

open Sys2Proof.Machine

/-- Settles O3: a word is its two fields, the mask keeps the opcode, and the encoding carries the row's opcode and the
canonical immediate. -/
theorem decodeAndEncodeAgree : Obligations.DecodeAndEncodeAgree := by
  refine ⟨fun i => ⟨decode_encode i, (Laws.TableRow.statement i).1⟩, fun w i => ?_, fun w => ?_⟩
  · rw [decode_eq_iff, and_matchMask_eq_matchBits_iff]
  · rw [encode_decode]
    split
    · exact portWord_fields w
    · rfl

/-- Settles O47: each NEXT edge of FILL adds OUT after it, each NOP edge of IDLE adds nothing. -/
theorem fillYieldsExactlyThatManyBytes : Obligations.FillYieldsExactlyThatManyBytes := by
  intro s n hs
  refine ⟨⟨_, rfl, List.length_replicate, ?_⟩, ⟨_, rfl, List.length_replicate, ?_⟩⟩
  · rw [outputsOf_of_next hs fun _ => action_of_mem_replicate_commandEdge, List.length_replicate]
    refine ⟨by simp, fun i hi => ?_⟩
    simp [hi, finalRegisters_eq]
  · exact outputsOf_of_nop hs fun _ => action_of_mem_replicate_commandEdge

/-- Settles O1, by the four opcodes and the arithmetic of the fields. -/
theorem everyWordDecodesByItsOpcode : Obligations.EveryWordDecodesByItsOpcode := fun w =>
  ⟨decode_of_opField_nop, decode_of_opField_seed, decode_of_opField_seedt, decode_of_opField_next, toNat_opField w,
    toNat_immField w⟩

/-- Settles O2, by evaluating the decoder on the nine words. -/
theorem writtenOutWordsDecode : Obligations.WrittenOutWordsDecode := by
  unfold Obligations.WrittenOutWordsDecode
  decide

/-- Settles O4: without SEED's opcode the immediate is not read, and an edge acts by its action and its count alone. -/
theorem ignoredImmediateHasNoEffect : Obligations.IgnoredImmediateHasNoEffect := by
  intro op d d' tns s h
  have hdec := decode_portWord_of_ne_seed h d d'
  refine ⟨hdec, ?_⟩
  rw [step_present_single, step_present_single]
  refine congrArg Host.Outcome.next (State.afterEdge_congr ?_ ?_ s)
  · exact congrArg EdgeAction.command hdec
  · rfl

/-- Settles O5, line by line: each command line is one edge with the command's encoding. -/
theorem assemblerEmitsTheWords : Obligations.AssemblerEmitsTheWords := by
  refine ⟨rfl, fun v hv => ?_, fun v => AsmLine.edges_seed_of_lt, fun tns => ?_, rfl, rfl, rfl⟩
  · rw [AsmLine.edges_seed_of_le hv, ← encode_seed_of_le hv, ← commandEdge_word?]
    rfl
  · cases tns with
    | none => rfl
    | some v => exact congrArg (fun w => Except.ok [w]) (seedtEdge_word? v)

/-- Settles O6, by the bound of a command word. -/
theorem onlyTenBitNumbersAreCommandWords : Obligations.OnlyTenBitNumbersAreCommandWords := by
  refine fun nbits w => ⟨fun h => ⟨decodeNumber_of_le h, ?_⟩, fun h => ?_⟩
  · rw [decodeTableWord, decodeNumber_of_le h]
    rfl
  · rw [decodeTableWord, decodeNumber_of_lt h]
    rfl

end Sys2Proof.Proofs

/-! # Construction, spec/40_construction.md -/

namespace Sys2Proof.Machine

/-! ## What a list of edges leaves, portion by portion -/

/-- A block that has been reset stays so over any edges (R182). -/
theorem State.awaitingReset_afterEdges {s : State} (hs : s.awaitingReset = false) (es : List Edge) :
    (s.afterEdges es).awaitingReset = false := by
  induction es generalizing s with
  | nil => exact hs
  | cons e es ih => exact ih (State.awaitingReset_afterEdge hs e)

/-- The outputs collected over two portions of edges are those of the first and then those of the second (R190). -/
theorem outputsOf_append (es fs : List Edge) (s : State) :
    outputsOf (es ++ fs) s = outputsOf es s ++ outputsOf fs (s.afterEdges es) := by
  induction es generalizing s with
  | nil => rfl
  | cons e es ih => rw [List.cons_append, outputsOf_cons, outputsOf_cons, ih, List.append_assoc, State.afterEdges_cons]

/-! ## The edges that construct, and the sequence after them -/

section
variable {s : State}

/-- The edge of the assembler's SEED line constructs with the byte it carries (R90). -/
theorem constructs_commandEdge_seed (hs : s.awaitingReset = false) (v : Byte) :
    Constructs s (commandEdge (.seed v)) v :=
  ⟨hs, .inl (commandEdge_action _)⟩

/-- The SEEDT edge that names a byte as its time count constructs with that byte (R93, U1). -/
theorem constructs_seedtEdge_toNat (hs : s.awaitingReset = false) (t : Byte) : Constructs s (seedtEdge t.toNat) t := by
  simpa using constructs_seedtEdge hs t.toNat

/-- The edge of the assembler's NEXT line draws nothing. -/
theorem drawNamed_commandEdge_next : DrawNamed (commandEdge .next) :=
  ⟨by simp [commandEdge, wordEdge], by simp⟩

/-- `SEED v` and then `k` NEXTs give the same outputs from any two states: the old generator has no part in them (R91). -/
theorem outputsOf_sequenceEdges_eq {s' : State} (hs : s.awaitingReset = false) (hs' : s'.awaitingReset = false) (v : Byte)
    (k : Nat) : outputsOf (sequenceEdges v k) s = outputsOf (sequenceEdges v k) s' := by
  have h := constructs_commandEdge_seed hs v
  have h' := constructs_commandEdge_seed hs' v
  have hnext : ∀ f ∈ List.replicate k (commandEdge .next), DrawNamed f := fun f hf =>
    List.eq_of_mem_replicate hf ▸ drawNamed_commandEdge_next
  rw [sequenceEdges, h.outputsOf_cons, h'.outputsOf_cons]
  exact (sameGenerator_run hnext (State.awaitingReset_afterEdge hs _) (State.awaitingReset_afterEdge hs' _)
    (h.sameGenerator h')).1

/-- They are `k` outputs, one for each NEXT (R53). -/
theorem length_outputsOf_sequenceEdges (hs : s.awaitingReset = false) (v : Byte) (k : Nat) :
    (outputsOf (sequenceEdges v k) s).length = k := by
  rw [sequenceEdges, (constructs_commandEdge_seed hs v).outputsOf_cons,
    outputsOf_of_next (State.awaitingReset_afterEdge hs _) fun _ => action_of_mem_replicate_commandEdge]
  simp

/-! ## One construction for another -/

/-- SEEDT with the draw `t` and SEED `t` leave the same registers; while a reset is outstanding both leave the free ones
(R94, R182). -/
theorem edgeRegs_seedt_eq_seed {e e' : Edge} {t : Byte} (he : e.action = .command .seedt)
    (ht : (s.present [e]).draw8 = t) (he' : e'.action = .command (.seed t)) :
    edgeRegs (s.present [e]) = edgeRegs (s.present [e']) := by
  cases hs : s.awaitingReset with
  | false =>
    have h : Constructs s e t := ⟨hs, .inr ⟨he, ht⟩⟩
    have h' : Constructs s e' t := ⟨hs, .inl he'⟩
    rw [h.edgeRegs_eq, h'.edgeRegs_eq]
  | true => rw [edgeRegs_awaiting hs (by simp [he]), edgeRegs_awaiting hs (by simp [he'])]

/-- Edges that leave the same registers, and are resets both or neither, leave the same state (R182). -/
theorem State.afterEdge_eq_of_edgeRegs_eq {e e' : Edge} (hregs : edgeRegs (s.present [e]) = edgeRegs (s.present [e']))
    (hreset : e.action = .reset ↔ e'.action = .reset) : s.afterEdge e = s.afterEdge e' := by
  have hawaiting : edgeAwaiting (s.present [e]) = edgeAwaiting (s.present [e']) :=
    congrArg (s.awaitingReset && ·) (decide_eq_decide.mpr (not_congr hreset))
  simp [State.afterEdge, nextState, hregs, hawaiting]

end

end Sys2Proof.Machine

namespace Sys2Proof.Proofs

open Sys2Proof.Machine

/-- Settles O24: the outputs come portion by portion, and those of the second do not depend on where it starts. -/
theorem constructionRestartsTheSequence : Obligations.ConstructionRestartsTheSequence := by
  intro s before v k hs
  refine ⟨?_, length_outputsOf_sequenceEdges rfl v k⟩
  have hs' := State.awaitingReset_afterEdges hs before
  rw [outputsOf_append, outputsOf_sequenceEdges_eq (s' := State.reset) hs' rfl]

/-- Settles O19: SEED's opcode keeps the immediate, and the command is the construction with it. -/
theorem seedConstructsGenerator : Obligations.SeedConstructsGenerator := by
  refine fun s v => ⟨?_, exec_eq (.seed v) s⟩
  rw [decode_of_opField_seed (opField_portWord _ v), immField_portWord]

/-- Settles O20, by the two cases of the draw; the command is the construction with it. -/
theorem seedtConstructsFromTheDraw : Obligations.SeedtConstructsFromTheDraw := by
  refine fun s imm8 => ⟨decode_of_opField_seedt (opField_portWord _ imm8), ?_, exec_eq .seedt s⟩
  cases h : s.presented.namedTns with
  | some v => exact State.draw8_of_named h
  | none => exact State.draw8_of_unnamed h

/-- Settles O22: the two edges leave the same registers, and neither is a reset. -/
theorem seedtEqualsSeedOfTheDraw : Obligations.SeedtEqualsSeedOfTheDraw := by
  intro s e e' t he ht he'
  have hafter : s.afterEdge e = s.afterEdge e' :=
    State.afterEdge_eq_of_edgeRegs_eq (edgeRegs_seedt_eq_seed he ht he') (by simp [he, he'])
  rw [step_present_single, step_present_single, hafter]

/-- Settles O23, by the SEEDT edge whose time count is the byte. -/
theorem everyDrawIsLegal : Obligations.EveryDrawIsLegal := by
  intro s t hs
  have hfirst := constructs_seedtEdge_toNat hs t
  have hagain := constructs_seedtEdge_toNat (State.awaitingReset_afterEdge hs (seedtEdge t.toNat)) t
  exact ⟨seedtEdge t.toNat, _, _, seedtEdge_action _,
    step_present_single s _, hfirst.seed_afterEdges (List.forall_mem_nil _),
    step_present_single _ _, hagain.seed_afterEdges (List.forall_mem_nil _)⟩

end Sys2Proof.Proofs

/-! # Generation and its arithmetic, spec/41_generate.md -/

namespace Sys2Proof.Machine

/-! ## The nibble swap and the middle square (R112, R114) -/

/-- The nibble swap exchanges the two nibbles. -/
theorem swap4_eq_append (v : Byte) : swap4 v = v.extractLsb' 0 4 ++ v.extractLsb' 4 4 := by
  refine BitVec.eq_of_getLsbD_eq fun k hk => ?_
  rw [swap4_getLsbD v hk, BitVec.getLsbD_append, BitVec.getLsbD_extractLsb', BitVec.getLsbD_extractLsb']
  split
  case isTrue h4 =>
    rw [show (k + 4) % 8 = 4 + k by omega]
    simp [h4]
  case isFalse h4 =>
    rw [show (k + 4) % 8 = 0 + (k - 4) by omega]
    simp [show k - 4 < 4 by omega]

/-- The two shifted values have no common bit. -/
theorem shr8_and_shl8 (v : Byte) : shr8 v 4 &&& shl8 v 4 = 0x00#8 := by
  refine BitVec.eq_of_getLsbD_eq fun k hk => ?_
  by_cases h4 : k < 4
  · simp [shr8, shl8, h4]
  · simp [shr8, shl8, BitVec.getLsbD_of_ge v (4 + k) (by omega)]

/-- So their OR is their sum. -/
theorem swap4_eq_add8 (v : Byte) : swap4 v = add8 (shr8 v 4) (shl8 v 4) :=
  (BitVec.add_eq_or_of_and_eq_zero _ _ (shr8_and_shl8 v)).symm

/-- Half of the byte's width to the left or to the right is one rotation. -/
theorem swap4_eq_rotateLeft (v : Byte) : swap4 v = v.rotateLeft 4 := BitVec.or_comm _ _

theorem swap4_eq_rotateRight (v : Byte) : swap4 v = v.rotateRight 4 := rfl

theorem swap4_involutive : Function.Involutive swap4 := swap4_swap4

/-- The square of an odd byte is 1 modulo 8. -/
theorem mul8_self_of_odd {v : Byte} (h : v.toNat % 2 = 1) : (mul8 v v).toNat % 8 = 1 := by
  have hsq := Nat.eight_dvd_sq_sub_one_of_odd (Nat.odd_iff.mpr h)
  have hpos : 0 < v.toNat ^ 2 := Nat.pow_pos (by omega)
  rw [mul8_toNat, ← Nat.pow_two]
  omega

/-- The square of a multiple of 16 is zero. -/
theorem mul8_self_of_mod_sixteen {v : Byte} (h : v.toNat % 16 = 0) : mul8 v v = 0x00#8 := by
  obtain ⟨m, hm⟩ := Nat.dvd_of_mod_eq_zero h
  apply BitVec.eq_of_toNat_eq
  rw [mul8_toNat, hm, show 16 * m * (16 * m) = 256 * (m * m) by ring, Nat.mul_mod_right]
  rfl

/-- The nibble swap of a multiple of 16 is its high nibble. -/
theorem swap4_toNat_of_mod_sixteen {v : Byte} (h : v.toNat % 16 = 0) : (swap4 v).toNat = v.toNat / 16 := by
  rw [swap4_toNat, show v.toNat * 16 % 256 = 0 by omega, Nat.or_zero]

/-! ## NEXT and NOP edges in a row -/

/-- NEXT and NOP edges yield OUT after each generator step, in order. -/
theorem outputsOf_unbroken {es : List Edge} (hes : Unbroken es) {s : State} (hs : s.awaitingReset = false) :
    outputsOf es s = (List.range (countNext es)).map fun k => (Registers.generate^[k + 1] s.regs).out := by
  induction es generalizing s with
  | nil => rfl
  | cons e es ih =>
    obtain ⟨he, hes⟩ := hes.of_cons
    rw [outputsOf_cons, ih hes (State.awaitingReset_afterEdge hs e), State.afterEdge_regs]
    obtain he | he := he
    · rw [countNext_cons_next es he, List.range_succ_eq_map, List.map_cons, List.map_map, edgeRegs_command hs he]
      rfl
    · rw [countNext_cons_of_ne es (by simp [he]), edgeRegs_command hs he]
      rfl

/-- A reset edge adds nothing to the outputs. -/
theorem outputsOf_cons_of_reset {e : Edge} (he : e.action = .reset) (es : List Edge) (s : State) :
    outputsOf (e :: es) s = outputsOf es (s.afterEdge e) := by
  rw [outputsOf_cons, State.afterEdge_regs, edgeRegs_reset he]
  rfl

/-- But for DVALID, the registers after a reset edge and NEXT and NOP edges. -/
theorem idle_regs_afterEdges_reset {e : Edge} (he : e.action = .reset) {es : List Edge} (hes : Unbroken es) (s : State) :
    (s.afterEdges (e :: es)).regs.idle = (Registers.generate^[countNext es] Registers.reset).idle := by
  rw [State.afterEdges_cons, idle_regs_afterEdges_unbroken hes (by simp [he]), State.afterEdge_regs, edgeRegs_reset he]

/-- But for DVALID, generator steps leave the reset registers as they are (R119). -/
@[simp] theorem Registers.idle_iterate_generate_reset (n : Nat) : (generate^[n] reset).idle = reset := by
  induction n with
  | zero => rfl
  | succ n ih =>
    calc (generate^[n + 1] reset).idle = (generate (generate^[n] reset).idle).idle := by
          rw [Function.iterate_succ_apply']; rfl
      _ = (generate reset).idle := by rw [ih]
      _ = reset := by decide

/-- So they emit zeros. -/
@[simp] theorem Registers.out_iterate_generate_reset (n : Nat) : (generate^[n] reset).out = 0x00#8 :=
  congrArg out (idle_iterate_generate_reset n)

/-! ## The outputs without the NOP edges (R115) -/

/-- No command's effect on the registers depends on DVALID. -/
theorem commandRegs_idle (i : Instr) (d : Byte) (r : Registers) : commandRegs i d r.idle = commandRegs i d r := by
  cases i <;> rfl

theorem Registers.SameGenerator.refl (r : Registers) : r.SameGenerator r := ⟨rfl, rfl, rfl, rfl, rfl⟩

/-- An edge that draws nothing unnamed leaves the same registers whatever DVALID held. -/
theorem DrawNamed.edgeRegs_eq_of_idle {f : Edge} (hf : DrawNamed f) {s s' : State} (hs : s.awaitingReset = false)
    (hs' : s'.awaitingReset = false) (h : s'.regs = s.regs.idle) :
    edgeRegs (s'.present [f]) = edgeRegs (s.present [f]) := by
  obtain hr | ⟨i, d, hi⟩ := hf.cases
  · rw [edgeRegs_reset hr, edgeRegs_reset hr]
  · rw [hi s hs, hi s' hs', h, commandRegs_idle]

/-- The outputs over edges that draw nothing unnamed do not depend on DVALID at their start. -/
theorem outputsOf_eq_of_idle {es : List Edge} (hes : ∀ f ∈ es, DrawNamed f) {s s' : State} (hs : s.awaitingReset = false)
    (hs' : s'.awaitingReset = false) (h : s'.regs = s.regs.idle) : outputsOf es s' = outputsOf es s := by
  cases es with
  | nil => rfl
  | cons f es =>
    obtain ⟨hf, hes⟩ := List.forall_mem_cons.mp hes
    have hregs : (s'.afterEdge f).regs = (s.afterEdge f).regs := hf.edgeRegs_eq_of_idle hs hs' h
    have hrest := (sameGenerator_run hes (State.awaitingReset_afterEdge hs' f) (State.awaitingReset_afterEdge hs f)
      (hregs ▸ .refl _)).1
    rw [outputsOf_cons, outputsOf_cons, hregs, hrest]

/-- A NOP edge has no part in the outputs. -/
theorem outputsOf_cons_nop {e : Edge} (he : e.action = .command .nop) {es : List Edge} (hes : ∀ f ∈ es, DrawNamed f)
    {s : State} (hs : s.awaitingReset = false) : outputsOf (e :: es) s = outputsOf es s := by
  have hregs : (s.afterEdge e).regs = s.regs.idle := edgeRegs_command hs he
  rw [outputsOf_cons, hregs, outputsOf_eq_of_idle hes hs (State.awaitingReset_afterEdge hs e) hregs]
  rfl

/-- So the NOP edges may all be left out. -/
theorem outputsOf_filter_nop {es : List Edge} (hes : ∀ f ∈ es, DrawNamed f) {s : State} (hs : s.awaitingReset = false) :
    outputsOf es s = outputsOf (es.filter fun e => e.action ≠ .command .nop) s := by
  induction es generalizing s with
  | nil => rfl
  | cons e es ih =>
    obtain ⟨-, htail⟩ := List.forall_mem_cons.mp hes
    by_cases he : e.action = .command .nop
    · rw [List.filter_cons_of_neg (by simp [he]), outputsOf_cons_nop he htail hs, ih htail hs]
    · rw [List.filter_cons_of_pos (by simp [he]), outputsOf_cons, outputsOf_cons,
        ih htail (State.awaitingReset_afterEdge hs e)]

/-! ## The recurrence of R111 -/

theorem stateAfter_succ (v : Byte) (k : Nat) :
    stateAfter v (k + 1) = (stateAfter v k * stateAfter v k % 256 + (k + 1) * v.toNat % 256) % 256 := rfl

theorem stateAfter_lt (v : Byte) (k : Nat) : stateAfter v k < 256 := by
  cases k with
  | zero => simp [stateAfter]
  | succ k => exact Nat.mod_lt _ (by decide)

/-- Generator steps after a construction follow the recurrence. -/
theorem Registers.iterate_generate_construct_state_toNat (v : Byte) (r : Registers) (k : Nat) :
    (generate^[k] (r.construct v)).state.toNat = stateAfter v k := by
  induction k with
  | zero => rfl
  | succ k ih =>
    have hweyl : (generate^[k + 1] (r.construct v)).weyl.toNat = (k + 1) * v.toNat % 256 := by
      rw [iterate_generate_weyl_toNat, construct_weyl, construct_seed, BitVec.toNat_ofNat, Nat.zero_mod, Nat.zero_add]
    rw [Function.iterate_succ_apply'] at hweyl ⊢
    rw [generate_state, ← generate_weyl, add8_toNat, mul8_toNat, ih, hweyl, stateAfter_succ]

/-- After any generator step OUT is the swap of STATE (R26). -/
theorem Registers.iterate_generate_out (r : Registers) {k : Nat} (hk : k ≠ 0) :
    (generate^[k] r).out = swap4 (generate^[k] r).state := by
  obtain ⟨k, rfl⟩ := Nat.exists_eq_succ_of_ne_zero hk
  rw [Function.iterate_succ_apply', generate_out]

/-- The nibble swap of a byte is R14's formula on its number. -/
theorem swap4_toNat_eq_swapNibbles (v : Byte) : (swap4 v).toNat = swapNibbles v.toNat := swap4_toNat v

section
variable {s : State} {e : Edge} {v : Byte} {es : List Edge}

/-- STATE after NEXT and NOP edges is the term of the recurrence for their number of NEXTs. -/
theorem Constructs.state_afterEdges (h : Constructs s e v) (hes : Unbroken es) :
    (s.afterEdges (e :: es)).regs.state.toNat = stateAfter v (countNext es) :=
  (congrArg (fun r => r.state.toNat) (h.idle_regs_afterEdges hes)).trans
    (Registers.iterate_generate_construct_state_toNat v _ _)

/-- Once there has been a NEXT, OUT is the swap of STATE (R26). -/
theorem Constructs.out_afterEdges (h : Constructs s e v) (hes : Unbroken es) (hn : countNext es ≠ 0) :
    (s.afterEdges (e :: es)).regs.out = swap4 (s.afterEdges (e :: es)).regs.state := by
  have hregs := h.idle_regs_afterEdges hes
  have hout := congrArg Registers.out hregs
  have hstate := congrArg Registers.state hregs
  rw [Registers.idle_out, Registers.idle_out] at hout
  rw [Registers.idle_state, Registers.idle_state] at hstate
  rw [hout, hstate, Registers.iterate_generate_out _ hn]

theorem Constructs.out_afterEdges_toNat (h : Constructs s e v) (hes : Unbroken es) (hn : countNext es ≠ 0) :
    (s.afterEdges (e :: es)).regs.out.toNat = swapNibbles (stateAfter v (countNext es)) := by
  rw [h.out_afterEdges hes hn, swap4_toNat_eq_swapNibbles, h.state_afterEdges hes]

/-- The outputs after a construction are the swaps of the recurrence's terms, in order. -/
theorem Constructs.outputsOf_unbroken (h : Constructs s e v) (hes : Unbroken es) :
    (outputsOf (e :: es) s).map BitVec.toNat
      = (List.range (countNext es)).map fun k => swapNibbles (stateAfter v (k + 1)) := by
  rw [h.outputsOf_cons, Machine.outputsOf_unbroken hes (State.awaitingReset_afterEdge h.1 e), State.afterEdge_regs,
    h.edgeRegs_eq, List.map_map]
  refine List.map_congr_left fun k _ => ?_
  rw [Function.comp_apply, Registers.iterate_generate_out _ (Nat.succ_ne_zero k), swap4_toNat_eq_swapNibbles,
    Registers.iterate_generate_construct_state_toNat]

end

/-! ## The registers along the sequence of a seed -/

theorem unbroken_replicate_next (k : Nat) : Unbroken (List.replicate k (commandEdge .next)) := fun _ he =>
  .inl (action_of_mem_replicate_commandEdge he)

@[simp] theorem countNext_replicate_next (k : Nat) : countNext (List.replicate k (commandEdge .next)) = k := by
  simp [countNext, List.countP_replicate]

section
variable {s : State}

/-- WEYL after `SEED v` and `k` NEXTs (R24). -/
theorem weyl_sequenceEdges (hs : s.awaitingReset = false) (v : Byte) (k : Nat) :
    (s.afterEdges (sequenceEdges v k)).regs.weyl.toNat = k * v.toNat % 256 := by
  have h := (constructs_commandEdge_seed hs v).weyl_afterEdges (unbroken_replicate_next k)
  rwa [countNext_replicate_next] at h

/-- STATE after `SEED v` and `k` NEXTs (R111). -/
theorem state_sequenceEdges (hs : s.awaitingReset = false) (v : Byte) (k : Nat) :
    (s.afterEdges (sequenceEdges v k)).regs.state.toNat = stateAfter v k := by
  have h := (constructs_commandEdge_seed hs v).state_afterEdges (unbroken_replicate_next k)
  rwa [countNext_replicate_next] at h

/-- OUT after `SEED v` and at least one NEXT is the swap of STATE (R26). -/
theorem out_sequenceEdges (hs : s.awaitingReset = false) (v : Byte) {k : Nat} (hk : 0 < k) :
    (s.afterEdges (sequenceEdges v k)).regs.out = swap4 (s.afterEdges (sequenceEdges v k)).regs.state :=
  (constructs_commandEdge_seed hs v).out_afterEdges (unbroken_replicate_next k)
    (by rw [countNext_replicate_next]; exact hk.ne')

/-- Between two points of a sequence STATE agrees exactly where the recurrence does. -/
theorem state_sequenceEdges_eq_iff (hs : s.awaitingReset = false) (v : Byte) (k j : Nat) :
    (s.afterEdges (sequenceEdges v k)).regs.state = (s.afterEdges (sequenceEdges v j)).regs.state
      ↔ stateAfter v k = stateAfter v j := by
  rw [← BitVec.toNat_inj, state_sequenceEdges hs, state_sequenceEdges hs]

/-- And so does OUT, the swap being a bijection. -/
theorem out_sequenceEdges_eq_iff (hs : s.awaitingReset = false) (v : Byte) {k j : Nat} (hk : 0 < k) (hj : 0 < j) :
    (s.afterEdges (sequenceEdges v k)).regs.out = (s.afterEdges (sequenceEdges v j)).regs.out
      ↔ stateAfter v k = stateAfter v j := by
  rw [out_sequenceEdges hs v hk, out_sequenceEdges hs v hj, swap4_involutive.injective.eq_iff,
    state_sequenceEdges_eq_iff hs]

end

/-! ## The recurrence for multiples of 16 (R117) -/

section
variable {v : Byte} (hv : 16 ∣ v.toNat)
include hv

theorem sixteen_dvd_mul_seed_mod (k : Nat) : 16 ∣ k * v.toNat % 256 :=
  (Nat.dvd_mod_iff (by decide)).mpr (hv.mul_left k)

/-- The squares vanish, and the terms are the multiples of the seed. -/
theorem stateAfter_of_sixteen_dvd (k : Nat) : stateAfter v k = k * v.toNat % 256 := by
  induction k with
  | zero => simp [stateAfter]
  | succ k ih =>
    have hdvd : 16 ∣ stateAfter v k := ih ▸ sixteen_dvd_mul_seed_mod hv k
    have hsq : 256 ∣ stateAfter v k * stateAfter v k := mul_dvd_mul hdvd hdvd
    rw [stateAfter_succ, Nat.mod_eq_zero_of_dvd hsq, Nat.zero_add, Nat.mod_mod]

/-- So the outputs are the high nibbles of the multiples. -/
theorem out_sequenceEdges_of_sixteen_dvd {s : State} (hs : s.awaitingReset = false) {k : Nat} (hk : 0 < k) :
    (s.afterEdges (sequenceEdges v k)).regs.out.toNat = k * v.toNat % 256 / 16 := by
  have hstate : (s.afterEdges (sequenceEdges v k)).regs.state.toNat = k * v.toNat % 256 := by
    rw [state_sequenceEdges hs, stateAfter_of_sixteen_dvd hv]
  have hlow : (s.afterEdges (sequenceEdges v k)).regs.state.toNat % 16 = 0 := by
    rw [hstate, Nat.mod_eq_zero_of_dvd (sixteen_dvd_mul_seed_mod hv k)]
  rw [out_sequenceEdges hs v hk, swap4_toNat_of_mod_sixteen hlow, hstate]

end

/-! ## The period of the recurrence (R116) -/

/-- The recurrence of R111 before any reduction modulo 256. -/
def exactState (v : Byte) : Nat → Int
  | 0 => 0
  | k + 1 => exactState v k * exactState v k + (k + 1) * v.toNat

@[simp] theorem exactState_zero (v : Byte) : exactState v 0 = 0 := rfl

theorem exactState_succ (v : Byte) (k : Nat) :
    exactState v (k + 1) = exactState v k * exactState v k + (k + 1) * v.toNat := rfl

/-- Reducing at every step or not at all is the same modulo 256 (R14). -/
theorem stateAfter_modEq_exactState (v : Byte) (k : Nat) : stateAfter v k ≡ exactState v k [ZMOD 256] := by
  induction k with
  | zero => rfl
  | succ k ih =>
    rw [stateAfter_succ, exactState_succ]
    push_cast
    exact (Int.mod_modEq _ _).trans (((Int.mod_modEq _ _).trans (ih.mul ih)).add (Int.mod_modEq _ _))

/-- Terms agree exactly where the unreduced ones differ by a multiple of 256. -/
theorem stateAfter_eq_iff (v : Byte) (k j : Nat) :
    stateAfter v k = stateAfter v j ↔ 256 ∣ exactState v k - exactState v j := by
  have hk := stateAfter_modEq_exactState v k
  have hj := stateAfter_modEq_exactState v j
  have hlk := stateAfter_lt v k
  have hlj := stateAfter_lt v j
  simp only [Int.ModEq] at hk hj
  omega

/-- The difference of two terms, at a distance `q`, is multiplied by their sum, and `q` seeds are added. -/
theorem exactState_sub_succ (v : Byte) (q k : Nat) :
    exactState v (k + 1 + q) - exactState v (k + 1)
      = (exactState v (k + q) - exactState v k) * (exactState v (k + q) + exactState v k) + q * v.toNat := by
  rw [Nat.add_right_comm k 1 q, exactState_succ, exactState_succ]
  push_cast
  ring

/-- `q` seeds vanish modulo 256 exactly where `q` is a multiple of WEYL's period (R25). -/
theorem dvd_mul_seed_iff (v : Byte) (q : Nat) : (256 : Int) ∣ q * v.toNat ↔ weylPeriod v ∣ q := by
  have h := mul_mod_eq_iff_mod_weylPeriod v q 0
  rw [Nat.zero_mul, Nat.zero_mod, Nat.zero_mod, ← Nat.dvd_iff_mod_eq_zero, ← Nat.dvd_iff_mod_eq_zero] at h
  exact_mod_cast h

/-- Terms at a distance that is no multiple of WEYL's period do not agree twice in a row. -/
theorem stateAfter_succ_ne {v : Byte} {q : Nat} (hq : ¬ weylPeriod v ∣ q) {k : Nat}
    (h : stateAfter v (k + q) = stateAfter v k) : stateAfter v (k + 1 + q) ≠ stateAfter v (k + 1) := by
  rw [stateAfter_eq_iff] at h
  rw [ne_eq, stateAfter_eq_iff, exactState_sub_succ, dvd_add_right (h.mul_right _), dvd_mul_seed_iff]
  exact hq

/-- So at such a distance they differ again and again. -/
theorem exists_late_stateAfter_ne {v : Byte} {q : Nat} (hq : ¬ weylPeriod v ∣ q) (n : Nat) :
    ∃ k, n < k ∧ stateAfter v (k + q) ≠ stateAfter v k := by
  by_cases h : stateAfter v (n + 1 + q) = stateAfter v (n + 1)
  · exact ⟨n + 1 + 1, by omega, stateAfter_succ_ne hq h⟩
  · exact ⟨n + 1, by omega, h⟩

/-- Twice a term is, modulo 4, the seed times `k (k + 1)`: squaring keeps the parity. -/
theorem four_dvd_two_mul_exactState_sub (v : Byte) (k : Nat) :
    (4 : Int) ∣ 2 * exactState v k - k * (k + 1) * v.toNat := by
  induction k with
  | zero => simp
  | succ k ih =>
    have hsq : (2 : Int) ∣ exactState v k * (exactState v k - 1) := (Int.even_mul_pred_self _).two_dvd
    have hstep : 2 * exactState v (k + 1) - ((k + 1 : Nat) : Int) * ((k + 1 : Nat) + 1) * v.toNat
        = 2 * (exactState v k * (exactState v k - 1)) + (2 * exactState v k - k * (k + 1) * v.toNat) := by
      rw [exactState_succ]
      push_cast
      ring
    rw [hstep]
    exact dvd_add (mul_dvd_mul_left 2 hsq) ih

/-- So a term is even where the seed times `k (k + 1)` is a multiple of 4. -/
theorem two_dvd_exactState {v : Byte} {k : Nat} (h : (4 : Int) ∣ k * (k + 1) * v.toNat) : 2 ∣ exactState v k := by
  have := four_dvd_two_mul_exactState_sub v k
  omega

/-- What divides the difference of terms one period apart, and what divides their sum, go into the next difference. -/
theorem dvd_exactState_sub_succ {v : Byte} {k : Nat} {a b : Int}
    (ha : a ∣ exactState v (k + weylPeriod v) - exactState v k)
    (hb : b ∣ exactState v (k + weylPeriod v) + exactState v k) (hab : a * b ∣ 256) :
    a * b ∣ exactState v (k + 1 + weylPeriod v) - exactState v (k + 1) := by
  rw [exactState_sub_succ]
  exact dvd_add (mul_dvd_mul ha hb) (hab.trans ((dvd_mul_seed_iff v _).mpr dvd_rfl))

/-- After five NEXTs the terms one period apart agree: their difference, even at first, gains a factor of two or more at
every step. -/
theorem dvd_exactState_sub_five (v : Byte) : 256 ∣ exactState v (5 + weylPeriod v) - exactState v 5 := by
  have hperiod : (4 : Int) ∣ weylPeriod v * (weylPeriod v + 1) * v.toNat := by
    have h : (256 : Int) ∣ weylPeriod v * v.toNat := (dvd_mul_seed_iff v _).mpr dvd_rfl
    rw [mul_right_comm]
    exact (Int.dvd_trans (by decide) h).mul_right _
  have heven0 : 2 ∣ exactState v (0 + weylPeriod v) - exactState v 0 := by simpa using two_dvd_exactState hperiod
  have heven3 : 2 ∣ exactState v 3 := two_dvd_exactState (dvd_mul_of_dvd_left (by decide) _)
  have heven4 : 2 ∣ exactState v 4 := two_dvd_exactState (dvd_mul_of_dvd_left (by decide) _)
  have h1 : 4 ∣ exactState v (1 + weylPeriod v) - exactState v 1 :=
    dvd_exactState_sub_succ heven0 (b := 2) (by simpa using heven0) (by decide)
  have h2 : 8 ∣ exactState v (2 + weylPeriod v) - exactState v 2 :=
    dvd_exactState_sub_succ h1 (b := 2) (by omega) (by decide)
  have h3 : 16 ∣ exactState v (3 + weylPeriod v) - exactState v 3 :=
    dvd_exactState_sub_succ h2 (b := 2) (by omega) (by decide)
  have h4 : 64 ∣ exactState v (4 + weylPeriod v) - exactState v 4 :=
    dvd_exactState_sub_succ h3 (b := 4) (by omega) (by decide)
  exact dvd_exactState_sub_succ h4 (b := 4) (by omega) (by decide)

/-- After the run-in the terms repeat with WEYL's period. -/
theorem stateAfter_add_weylPeriod (v : Byte) {k : Nat} (hk : 5 ≤ k) :
    stateAfter v (k + weylPeriod v) = stateAfter v k := by
  rw [stateAfter_eq_iff]
  induction k, hk using Nat.le_induction with
  | base => exact dvd_exactState_sub_five v
  | succ k _ ih =>
    rw [exactState_sub_succ]
    exact dvd_add (ih.mul_right _) ((dvd_mul_seed_iff v _).mpr dvd_rfl)

/-! ## The size of the period -/

theorem weylPeriod_dvd (v : Byte) : weylPeriod v ∣ 256 := Nat.div_dvd_of_dvd (Nat.gcd_dvd_right _ _)

theorem weylPeriod_pos (v : Byte) : 0 < weylPeriod v := Nat.pos_of_dvd_of_pos (weylPeriod_dvd v) (by decide)

/-- Below four the divisors of 256 divide two, and the byte is a multiple of 128. -/
theorem four_le_weylPeriod {v : Byte} (hv : v ≠ 0x00#8) (hv' : v ≠ 0x80#8) : 4 ≤ weylPeriod v := by
  by_contra hlt
  have hpos := weylPeriod_pos v
  have hdvd := weylPeriod_dvd v
  have htwo : weylPeriod v ∣ 2 := by
    obtain h | h | h : weylPeriod v = 1 ∨ weylPeriod v = 2 ∨ weylPeriod v = 3 := by omega
    · rw [h]
      decide
    · rw [h]
    · rw [h] at hdvd
      exact absurd hdvd (by decide)
  have hdouble := (dvd_mul_seed_iff v 2).mpr htwo
  have hlt := v.isLt
  rw [ne_eq, ← BitVec.toNat_inj, BitVec.toNat_ofNat] at hv hv'
  omega

theorem two_le_weylPeriod {v : Byte} (hv : v ≠ 0x00#8) : 2 ≤ weylPeriod v := by
  by_cases h : v = 0x80#8
  · subst h
    decide
  · exact le_trans (by decide) (four_le_weylPeriod hv h)

end Sys2Proof.Machine

namespace Sys2Proof.Proofs

open Sys2Proof.Machine

/-- Settles O17: generator steps leave the zero registers as they are, and each emits a zero. -/
theorem unseededBlockEmitsZeros : Obligations.UnseededBlockEmitsZeros := by
  intro s e es he hes
  have hregs : (s.afterEdges (e :: es)).regs.idle = Registers.reset := by
    rw [idle_regs_afterEdges_reset he hes, Registers.idle_iterate_generate_reset]
  refine ⟨?_, s.afterEdges (e :: es), runEdges_eq _ s, congrArg Registers.seed hregs, congrArg Registers.weyl hregs,
    congrArg Registers.state hregs, congrArg Registers.out hregs, congrArg Registers.seeded hregs⟩
  rw [outputsOf_cons_of_reset he, outputsOf_unbroken hes (by simp [he]), State.afterEdge_regs, edgeRegs_reset he]
  simp only [Registers.out_iterate_generate_reset, List.map_const', List.length_range]

/-- Settles O27: the generator step reads three registers, and what a NOP edge changes no command reads. -/
theorem outputIgnoresFlagsAndNops : Obligations.OutputIgnoresFlagsAndNops := by
  refine ⟨fun s s' hseed hweyl hstate => ?_, fun s es hs hes => outputsOf_filter_nop hes hs⟩
  refine ⟨_, _, exec_eq .next s, exec_eq .next s', ?_⟩
  simp [commandRegs, hseed, hweyl, hstate]

/-- Settles O34: the edges amount to so many generator steps, and each is one step of the recurrence. -/
theorem stateFollowsTheRecurrence : Obligations.StateFollowsTheRecurrence := fun s e _ es h hes =>
  ⟨⟨s.afterEdges (e :: es), runEdges_eq _ s, h.state_afterEdges hes, h.out_afterEdges_toNat hes⟩,
    h.outputsOf_unbroken hes⟩

/-- Settles O36. At the distance of WEYL's period the difference of two terms has lost all its bits after five NEXTs; at a
distance that is no multiple of it, equal terms are followed by different ones. -/
theorem sequencePeriodIsExact : Obligations.SequencePeriodIsExact := by
  refine fun s v hs => ⟨fun k hk => ?_, fun q hq hlt n => ?_⟩
  · have hterm := (stateAfter_add_weylPeriod v hk).symm
    refine ⟨_, _, runEdges_eq _ s, runEdges_eq _ s, ?_, ?_, ?_⟩
    · rw [← BitVec.toNat_inj, weyl_sequenceEdges hs, weyl_sequenceEdges hs, mul_mod_eq_iff_mod_weylPeriod,
        Nat.add_mod_right]
    · exact (state_sequenceEdges_eq_iff hs v _ _).mpr hterm
    · exact (out_sequenceEdges_eq_iff hs v (by omega) (by omega)).mpr hterm
  · obtain ⟨k, hk, hne⟩ := exists_late_stateAfter_ne (Nat.not_dvd_of_pos_of_lt hq hlt) n
    exact ⟨k, _, _, hk.le, runEdges_eq _ s, runEdges_eq _ s,
      mt (out_sequenceEdges_eq_iff hs v (by omega) (by omega)).mp hne.symm,
      mt (state_sequenceEdges_eq_iff hs v _ _).mp hne.symm⟩

/-- Settles O37: all four seeds are multiples of 16, whose squares vanish. -/
theorem shortPeriodSeeds : Obligations.ShortPeriodSeeds := by
  intro s k hs hk
  refine ⟨⟨_, runEdges_eq _ s, ?_, ?_, ?_⟩, ⟨_, runEdges_eq _ s, ?_⟩, ⟨_, runEdges_eq _ s, ?_⟩,
    ⟨_, runEdges_eq _ s, ?_⟩⟩
  · exact BitVec.eq_of_toNat_eq (weyl_sequenceEdges hs 0x00#8 k)
  · exact BitVec.eq_of_toNat_eq ((state_sequenceEdges hs 0x00#8 k).trans (stateAfter_of_sixteen_dvd (by decide) k))
  · rw [← BitVec.toNat_inj, out_sequenceEdges_of_sixteen_dvd (by decide) hs hk, BitVec.toNat_ofNat]
    omega
  · rw [← BitVec.toNat_inj, out_sequenceEdges_of_sixteen_dvd (by decide) hs hk, BitVec.toNat_ofNat]
    split
    · rw [BitVec.toNat_ofNat]
      omega
    · rw [BitVec.toNat_ofNat]
      omega
  · rw [out_sequenceEdges_of_sixteen_dvd (by decide) hs hk, BitVec.toNat_ofNat]
    omega
  · rw [out_sequenceEdges_of_sixteen_dvd (by decide) hs hk, BitVec.toNat_ofNat]
    omega

/-- Settles O38: the period of O36 is at least 2, at least 4, and 256 by the kind of seed; 0x80 is O37's. -/
theorem correctedNonDegeneracy : Obligations.CorrectedNonDegeneracy := by
  intro s v hs
  obtain ⟨hperiod, hminimal⟩ := sequencePeriodIsExact s v hs
  have hdiffer : ∀ q, 0 < q → q < weylPeriod v → ∀ n, ∃ k t t', n ≤ k ∧ runEdges (sequenceEdges v k) s = .next t ∧
      runEdges (sequenceEdges v (k + q)) s = .next t' ∧ t.regs.out ≠ t'.regs.out := by
    intro q hq hlt n
    obtain ⟨k, t, t', hn, ht, ht', hout, -⟩ := hminimal q hq hlt n
    exact ⟨k, t, t', hn, ht, ht', hout⟩
  refine ⟨fun hv => hdiffer 1 (by decide) (two_le_weylPeriod hv),
    fun hv hv' q hq hlt => hdiffer q hq (hlt.trans_le (four_le_weylPeriod hv hv')), fun hodd => ?_, ?_⟩
  · rw [weylPeriod_of_odd hodd] at hperiod hdiffer
    refine ⟨fun k hk => ?_, hdiffer⟩
    obtain ⟨t, t', ht, ht', -, -, hout⟩ := hperiod k hk
    exact ⟨t, t', ht, ht', hout⟩
  · rintro rfl k hk
    obtain ⟨-, ⟨t, ht, hout⟩, -⟩ := shortPeriodSeeds s k hs hk
    obtain ⟨-, ⟨t', ht', hout'⟩, -⟩ := shortPeriodSeeds s (k + 2) hs (Nat.add_pos_left hk 2)
    refine ⟨t, t', ht, ht', ?_⟩
    rw [hout, hout', Nat.add_mod_right]

/-- Settles O25: NEXT's opcode selects it whatever the immediate, and the command is the generator step. -/
theorem nextAdvancesGenerator : Obligations.NextAdvancesGenerator := fun s imm8 =>
  ⟨decode_of_opField_next (opField_portWord _ imm8), exec_eq .next s⟩

/-- Settles O26, by the sequence's closed forms at its first NEXT, and by two generator steps. -/
theorem rotationExampleOfTheSource : Obligations.RotationExampleOfTheSource := by
  refine ⟨fun s hs => ?_, fun s hseed hweyl hstate => ?_⟩
  · have hweyl := BitVec.eq_of_toNat_eq (y := 0xB2#8) (weyl_sequenceEdges hs 0xB2#8 1)
    have hstate := BitVec.eq_of_toNat_eq (y := 0xB2#8) (state_sequenceEdges hs 0xB2#8 1)
    refine ⟨_, runEdges_eq _ s, hweyl, hstate, ?_⟩
    rw [out_sequenceEdges hs _ (by decide), hstate]
    decide
  · have hweyl₁ : s.regs.generate.weyl = 0x21#8 := by
      rw [Registers.generate_weyl, hweyl, hseed]
      decide
    have hstate₁ : s.regs.generate.state = 0xB2#8 := by
      rw [Registers.generate_state, hstate, hweyl, hseed]
      decide
    have hstate₂ : s.regs.generate.generate.state = 0xE8#8 := by
      rw [Registers.generate_state, hstate₁, hweyl₁, Registers.generate_seed, hseed]
      decide
    exact ⟨_, _, exec_eq .next s, hweyl₁, hstate₁, (congrArg swap4 hstate₁).trans (by decide), exec_eq .next _, hstate₂,
      (congrArg swap4 hstate₂).trans (by decide)⟩

/-- Settles O30, bit by bit; a map that is its own inverse is a bijection. -/
theorem nibbleSwapLaws : Obligations.NibbleSwapLaws := by
  refine ⟨fun v => ⟨swap4_eq_append v, swap4_eq_rotateLeft v, swap4_eq_rotateRight v, swap4_swap4 v, shr8_and_shl8 v,
    swap4_eq_add8 v⟩, swap4_involutive.bijective, ?_⟩
  decide

/-- Settles O31: `(v + 128)²`, `(2 m + 1)²` and `(16 m)²` modulo 256. -/
theorem middleSquareLaws : Obligations.MiddleSquareLaws := by
  refine ⟨fun v => ⟨(mul8_self_xor_top v).symm, mul8_self_of_odd, mul8_self_of_mod_sixteen⟩, ?_⟩
  decide

end Sys2Proof.Proofs

namespace Sys2Proof.Proofs

open Sys2Proof.Machine

/-- Settles O39: NOP's opcode selects it whatever the immediate, and the command is the idle edge. -/
theorem nopClearsDvalidOnly : Obligations.NopClearsDvalidOnly := fun s imm8 =>
  ⟨decode_of_opField_nop (opField_portWord _ imm8), decode_of_opField_nop (by decide), exec_eq .nop s⟩

end Sys2Proof.Proofs

/-! # No faults, the reset that wins, idling and blocks that share nothing, spec/60_exceptions.md -/

namespace Sys2Proof.Machine

/-! ## Runs of any length -/

/-- A run of `n` edges is `n` edges' effects, whatever the state and whatever is presented (R150, R151). -/
theorem run_eq (n : Nat) (s : State) : Host.Core.run Sys2Proof.core n s = .next (nextState^[n] s) := by
  induction n generalizing s with
  | zero => rfl
  | succ n ih => rw [run_succ, ih, Function.iterate_succ_apply]

@[simp] theorem edges_iterate_nextState (n : Nat) (s : State) : (nextState^[n] s).edges = s.edges + n := by
  induction n with
  | zero => rfl
  | succ n ih => rw [Function.iterate_succ_apply', nextState_edges, ih, Nat.add_assoc]

@[simp] theorem inputs_iterate_nextState (n : Nat) (s : State) : (nextState^[n] s).inputs = s.inputs.drop n := by
  induction n with
  | zero => rfl
  | succ n ih => rw [Function.iterate_succ_apply', nextState_inputs, ih, List.tail_drop]

@[simp] theorem site_iterate_nextState (n : Nat) (s : State) : (nextState^[n] s).site = s.site := by
  induction n with
  | zero => rfl
  | succ n ih => rw [Function.iterate_succ_apply', nextState_site, ih]

/-! ## Reset edges and NOP edges -/

/-- A reset edge, whatever else it carries, leaves the reset registers and no reset outstanding (R153, R180). -/
theorem State.afterEdge_reset {e : Edge} (he : e.action = .reset) (s : State) :
    s.afterEdge e = { s with regs := Registers.reset, awaitingReset := false, edges := s.edges + 1 } := by
  simp [State.afterEdge, nextState, edgeAwaiting, edgeRegs_reset he, he]

/-- Any positive number of NOP edges leaves what one leaves (R161, R140). -/
theorem State.regs_afterEdges_of_nop {es : List Edge} {s : State} (hs : s.awaitingReset = false)
    (hes : ∀ e ∈ es, e.action = .command .nop) :
    (s.afterEdges es).regs = if es = [] then s.regs else s.regs.idle := by
  induction es generalizing s with
  | nil => rfl
  | cons e es ih =>
    obtain ⟨he, hes⟩ := List.forall_mem_cons.mp hes
    have hone : (s.afterEdge e).regs = s.regs.idle := edgeRegs_command hs he
    rw [State.afterEdges_cons, ih (State.awaitingReset_afterEdge hs e) hes, hone, Registers.idle_idle, ite_self,
      if_neg (List.cons_ne_nil e es)]

/-! ## Events at different blocks of a platform -/

/-- An event is at the block it names. -/
theorem PlatformEvent.unit_eq {ev : PlatformEvent} {k : Nat} (h : ∃ d, ev = .edge k d ∨ ev = .powerCycle k) :
    ev.unit = k := by
  obtain ⟨d, rfl | rfl⟩ := h <;> rfl

section
variable {p q : Platform} {ev : PlatformEvent}

/-- What an event makes of its block depends on that block alone: any platform that holds the same block there answers with the
same replacement (R159). -/
theorem Platform.apply_same_block (h : p.apply ev = .next q) :
    ∃ u', ∀ p' : Platform, p'.units[ev.unit]? = p.units[ev.unit]? → p'.apply ev = .next (p'.setUnit ev.unit u') := by
  obtain ⟨u, -, hu, -, -⟩ := Platform.apply_next h
  cases ev with
  | edge k drives =>
    have hu : p.units[k]? = some u := hu
    have hle : drives.length ≤ 1 := by
      by_contra hlt
      rw [Platform.apply_edge_of_refused hu (unitEvent_of_two_le (by omega) u)] at h
      cases h
    exact ⟨_, fun _ hp' => Platform.apply_edge_of_next (hp'.trans hu) (unitEvent_of_le_one hle u)⟩
  | powerCycle k => exact ⟨_, fun _ hp' => Platform.apply_powerCycle (hp'.trans hu)⟩

/-- An event leaves every block but its own as it was (R159). -/
theorem Platform.getElem?_apply_of_ne {j : Nat} (h : p.apply ev = .next q) (hj : j ≠ ev.unit) :
    q.units[j]? = p.units[j]? := by
  obtain ⟨-, -, -, -, rfl⟩ := Platform.apply_next h
  exact List.getElem?_set_ne hj.symm

theorem Platform.nInst_apply (h : p.apply ev = .next q) : q.nInst = p.nInst := by
  obtain ⟨-, -, -, -, rfl⟩ := Platform.apply_next h
  exact List.length_set

end

theorem Platform.setUnit_comm (p : Platform) {j k : Nat} (hjk : j ≠ k) (u u' : State) :
    (p.setUnit j u).setUnit k u' = (p.setUnit k u').setUnit j u :=
  congrArg Platform.mk (List.set_comm u u' hjk)

/-- Events at two different blocks may come in either order (R159). -/
theorem Platform.apply_comm {p a b a' b' : Platform} {u v : PlatformEvent} (huv : u.unit ≠ v.unit)
    (hu : p.apply u = .next a) (hv : a.apply v = .next b) (hv' : p.apply v = .next a') (hu' : a'.apply u = .next b') :
    b = b' := by
  obtain ⟨x, hx⟩ := Platform.apply_same_block hu
  obtain ⟨y, hy⟩ := Platform.apply_same_block hv'
  have ha : a = p.setUnit u.unit x := Host.Outcome.next.inj (hu.symm.trans (hx p rfl))
  have ha' : a' = p.setUnit v.unit y := Host.Outcome.next.inj (hv'.symm.trans (hy p rfl))
  have hb : b = a.setUnit v.unit y :=
    Host.Outcome.next.inj (hv.symm.trans (hy a (Platform.getElem?_apply_of_ne hu huv.symm)))
  have hb' : b' = a'.setUnit u.unit x :=
    Host.Outcome.next.inj (hu'.symm.trans (hx a' (Platform.getElem?_apply_of_ne hv' huv)))
  rw [hb, hb', ha, ha', Platform.setUnit_comm p huv]

end Sys2Proof.Machine

namespace Sys2Proof.Proofs

open Sys2Proof.Machine

/-- Settles O11: a run is its edges' effects in order, and each of them takes one edge off the list. -/
theorem everyRunGoesOn : Obligations.EveryRunGoesOn := by
  refine fun n s => ⟨⟨_, run_eq n s⟩, fun t ht => ?_⟩
  obtain rfl : nextState^[n] s = t := Host.Outcome.next.inj ((run_eq n s).symm.trans ht)
  exact ⟨edges_iterate_nextState n s, inputs_iterate_nextState n s, site_iterate_nextState n s⟩

/-- Settles O40: an idle edge clears DVALID alone, and a second one changes nothing more. -/
theorem idleHoldsTheGenerator : Obligations.IdleHoldsTheGenerator := by
  refine fun s es hs hes => ⟨outputsOf_of_nop hs hes, _, runEdges_eq es s, ?_⟩
  rw [State.regs_afterEdges_of_nop hs hes]
  split <;> rfl

/-- Settles O48: an event replaces its own block, by what depends on that block alone. -/
theorem blocksShareNothing : Obligations.BlocksShareNothing := by
  refine fun p q j k hjk => ⟨fun drives h => ?_, fun h => ?_, fun u v hu hv a b a' b' => ?_⟩
  · exact ⟨Platform.getElem?_apply_of_ne h hjk, Platform.nInst_apply h⟩
  · exact ⟨Platform.getElem?_apply_of_ne h hjk, Platform.nInst_apply h⟩
  · rw [← PlatformEvent.unit_eq hu, ← PlatformEvent.unit_eq hv] at hjk
    exact Platform.apply_comm hjk

/-- Settles O14: the inputs select the reset by `rst` alone. -/
theorem resetWinsOverTheCommand : Obligations.ResetWinsOverTheCommand := by
  intro s cmd din tns
  rw [step_present_single, State.afterEdge_reset rfl]
  rfl

end Sys2Proof.Proofs

/-! # Reset, power-up and the two observations of a run, spec/70_reset_and_hazards.md -/

namespace Sys2Proof.Machine

/-! ## The last edge of a run, and the indexes of the free values -/

theorem State.afterEdges_concat (s : State) (es : List Edge) (e : Edge) :
    s.afterEdges (es ++ [e]) = (s.afterEdges es).afterEdge e :=
  List.foldl_concat ..

@[simp] theorem State.edges_afterEdges (es : List Edge) (s : State) : (s.afterEdges es).edges = s.edges + es.length := by
  induction es generalizing s with
  | nil => rfl
  | cons e es ih => rw [State.afterEdges_cons, ih, State.afterEdge_edges, List.length_cons, Nat.add_assoc, Nat.add_comm 1]

@[simp] theorem State.site_afterEdges (es : List Edge) (s : State) : (s.afterEdges es).site = s.site := by
  induction es generalizing s with
  | nil => rfl
  | cons e es ih => rw [State.afterEdges_cons, ih, State.afterEdge_site]

/-! ## Reset edges and the wait for the first of them -/

/-- A run that ends in a reset edge leaves the reset registers, whatever came before (R180, R182). -/
theorem State.regs_afterEdges_concat_reset {e : Edge} (he : e.action = .reset) (es : List Edge) (s : State) :
    (s.afterEdges (es ++ [e])).regs = Registers.reset := by
  rw [State.afterEdges_concat, State.afterEdge_reset he]

/-- Such a run ends the wait for a reset (R182). -/
theorem State.awaitingReset_afterEdges_concat_reset {e : Edge} (he : e.action = .reset) (es : List Edge) (s : State) :
    (s.afterEdges (es ++ [e])).awaitingReset = false := by
  rw [State.afterEdges_concat, State.afterEdge_reset he]

/-- A reset that is outstanding stays so over edges that are no resets (R182). -/
theorem State.awaitingReset_afterEdges_of_no_reset {es : List Edge} (hes : ∀ f ∈ es, f.action ≠ .reset) {s : State}
    (hs : s.awaitingReset = true) : (s.afterEdges es).awaitingReset = true := by
  induction es generalizing s with
  | nil => exact hs
  | cons f es ih =>
    obtain ⟨hf, hes⟩ := List.forall_mem_cons.mp hes
    exact ih hes (by simp [hs, hf])

/-- While it is outstanding, the last edge leaves the free value of its own index (R182, log 6). -/
theorem State.regs_afterEdges_of_awaiting {es : List Edge} (hes : ∀ f ∈ es, f.action ≠ .reset) (hne : es ≠ []) {s : State}
    (hs : s.awaitingReset = true) :
    (s.afterEdges es).regs = Config.anyRegisters .powerUp s.site (s.edges + es.length - 1) := by
  obtain ⟨before, f, rfl⟩ := (List.eq_nil_or_concat' es).resolve_left hne
  obtain ⟨hbefore, hf⟩ := List.forall_mem_append.mp hes
  have hwait := State.awaitingReset_afterEdges_of_no_reset hbefore hs
  rw [State.afterEdges_concat, State.afterEdge_regs, edgeRegs_awaiting hwait (hf f List.mem_cons_self),
    State.site_afterEdges, State.edges_afterEdges, List.length_append, List.length_singleton, ← Nat.add_assoc,
    Nat.add_sub_cancel]

/-! ## The two observations of a run (R190) -/

/-- On a stable edge, DVALID = 1 after it adds OUT to the observation exactly where it executes NEXT. -/
theorem outputsOf_cons_of_stable {s : State} {e : Edge} (hs : s.awaitingReset = false) (he : e ≠ .marginal)
    (es : List Edge) : outputsOf (e :: es) s
      = (if e.action = .command .next then [(s.afterEdge e).regs.out] else []) ++ outputsOf es (s.afterEdge e) := by
  rw [outputsOf_cons, State.afterEdge_regs, if_congr (dvalid_edgeRegs_iff hs he) rfl rfl]

section
variable {es : List Edge} {s : State}

/-- Sampling `dout` at DVALID = 1 collects the OUT values of the NEXT edges. -/
theorem outputsOf_eq_nextOutputs (hes : StableEdges es) (hs : s.awaitingReset = false) :
    outputsOf es s = nextOutputs es.length (s.present es) := by
  induction es generalizing s with
  | nil => rfl
  | cons e es ih =>
    obtain ⟨he, hes⟩ := List.forall_mem_cons.mp hes
    have ha : (s.present [e]).action = e.action := State.action_of_reset_seen (s := s.present [e]) hs
    rw [outputsOf_cons_of_stable hs he, ih hes (State.awaitingReset_afterEdge hs e), List.length_cons, nextOutputs_cons,
      ha]

/-- They are as many as the NEXT edges. -/
theorem length_outputsOf_of_stable (hes : StableEdges es) (hs : s.awaitingReset = false) :
    (outputsOf es s).length = countNext es := by
  induction es generalizing s with
  | nil => rfl
  | cons e es ih =>
    obtain ⟨he, hes⟩ := List.forall_mem_cons.mp hes
    rw [outputsOf_cons_of_stable hs he, List.length_append, ih hes (State.awaitingReset_afterEdge hs e)]
    by_cases ha : e.action = .command .next
    · rw [if_pos ha, countNext_cons_next es ha, List.length_singleton, Nat.add_comm]
    · rw [if_neg ha, countNext_cons_of_ne es ha, List.length_nil, Nat.zero_add]

end

end Sys2Proof.Machine

namespace Sys2Proof.Proofs

open Sys2Proof.Machine

/-- Settles O15: the last of the reset edges alone decides what they leave. -/
theorem heldResetIsOneReset : Obligations.HeldResetIsOneReset := by
  intro s es e i hne hes he
  obtain ⟨before, f, rfl⟩ := (List.eq_nil_or_concat' es).resolve_left hne
  have hf : f.action = .reset := hes f List.mem_concat_self
  have hseen := State.awaitingReset_afterEdges_concat_reset hf before s
  refine ⟨_, _, _, runEdges_eq _ s, State.regs_afterEdges_concat_reset hf before s, exec_eq i _, runEdges_eq _ s, ?_⟩
  rw [State.afterEdges_concat, State.afterEdge_regs, edgeRegs_command hseen he]
  rfl

/-- Settles O46: on a stable edge DVALID = 1 tells of NEXT. -/
theorem twoObservationsAgree : Obligations.TwoObservationsAgree := fun _ _ hs hes =>
  ⟨outputsOf_eq_nextOutputs hes hs, length_outputsOf_of_stable hes hs⟩

/-- Settles O53: no edge but a reset ends the wait, and each of them draws the registers anew. -/
theorem registersUnspecifiedUntilTheFirstReset : Obligations.RegistersUnspecifiedUntilTheFirstReset := by
  refine ⟨fun s => ⟨rfl, rfl⟩, fun s es e hs hes he => ?_⟩
  exact ⟨_, _, runEdges_eq es s, State.awaitingReset_afterEdges_of_no_reset hes hs,
    fun hne => State.regs_afterEdges_of_awaiting hes hne hs, runEdges_eq _ s,
    State.awaitingReset_afterEdges_concat_reset he es s, State.regs_afterEdges_concat_reset he es s⟩

/-- Settles O16: the registers after each edge are the reset ones, the construction with 0, and the generator step from the
reset ones. -/
theorem resetDiffersFromSeedZeroInSeededAndOut : Obligations.ResetDiffersFromSeedZeroInSeededAndOut := by
  intro s e f g hs he hf hg
  have hreset : (s.afterEdge e).regs = Registers.reset := edgeRegs_reset he
  have hseed : (s.afterEdge f).regs = s.regs.construct 0x00#8 := edgeRegs_command hs hf
  have hnext : ((s.afterEdge e).afterEdge g).regs = Registers.reset.generate := by
    rw [State.afterEdge_next (State.awaitingReset_afterEdge hs e) hg, hreset]
  refine ⟨_, _, _, step_present_single s e, step_present_single s f, step_present_single _ g, ?_⟩
  rw [hreset, hseed, hnext]
  exact ⟨rfl, rfl, rfl, rfl, rfl, rfl, rfl, rfl, rfl, rfl, rfl, rfl, by decide, rfl⟩

/-- Settles O18: a reset edge acts alike in every state. -/
theorem resetDefinesRegistersAfterPowerUp : Obligations.ResetDefinesRegistersAfterPowerUp := by
  intro s e he
  refine ⟨⟨_, step_present_single s e, edgeRegs_reset he⟩, ⟨_, step_present_single s.powerCycle e, edgeRegs_reset he, ?_⟩⟩
  simp [he]

end Sys2Proof.Proofs
